-- ==== Sys2Proof/Word.lean ====
section
/-! DEFINITION. Word.lean: the word types of HDEC and its bit strings (00_scope.md R7 to R9, 30_encoding.md R43, R50). -/

namespace Sys2Proof

/-- A byte: a symbol of the alphabet 0 to 255 (R7), a payload byte (R50), an output entry (R51). -/
abbrev Byte := BitVec 8

/-- A command word is 32 bits wide (R43). -/
abbrev CommandWord := BitVec 32

/-- An input token is 9 bits wide: bit 8 is `EOS`, bits 7 to 0 are `DATA` (R50). -/
abbrev Token := BitVec 9

/-- A finite bit string in transmission order, `p.i` at index `i` (R9); `[]` is the spec's `ε`. -/
abbrev BitString := List Bool

end Sys2Proof
end

