-- ==== Sys2Proof/Syntax.lean ====
section
/-! DEFINITION. Syntax.lean: one constructor per row of spec/opcode_table.json: the eight commands, the two input tokens and the illegal class
(30_encoding.md R49, R50, R52). -/

namespace Sys2Proof

/-- What the host can hand the block on its command port and on its payload input port. -/
inductive Instr where
  /-- `NOP` (R57). -/
  | nop
  /-- `CT_CLEAR` (R58). -/
  | ctClear
  /-- `CT_PUSH`: the 1 to 16 code bits, in transmission order (R45, R59). -/
  | ctPush (bits : BitString)
  /-- `CT_COMMIT`: the symbol whose entry is written (R46, R60). -/
  | ctCommit (sym : Byte)
  /-- `SET_TOTAL_LO`: the new low half of `TOTAL` (R47, R62). -/
  | setTotalLo (imm : BitVec 16)
  /-- `SET_TOTAL_HI`: the new high half of `TOTAL` (R47, R63). -/
  | setTotalHi (imm : BitVec 16)
  /-- `START` (R64). -/
  | start
  /-- `ABORT` (R65). -/
  | abort
  /-- The token `IN_BYTE`: one payload byte (R50, R80). -/
  | inByte (data : Byte)
  /-- The token `IN_EOS`: the end-of-stream sentinel, whose `DATA` bits carry nothing (R50, R81). -/
  | inEos
  /-- `Illegal`: a command word that no row of R49 takes (R48, R49, R52). -/
  | illegal (w : CommandWord)
  deriving DecidableEq, Repr

/-- One transfer of the host towards the block: a word on the command port (R43, R83) or a token on the input port (R50, R79). -/
inductive PortWord where
  | command (w : CommandWord)
  | token (t : Token)
  deriving DecidableEq, Repr

end Sys2Proof
end

