-- ==== Sys2Proof/WellFormed.lean ====
section
/-! DEFINITION. WellFormed.lean: which terms of Instr stand for a transfer the host can make.
The opcode map is written here as R49 prints it, a list of match and mask rows; Decode.lean is written from R52's pseudocode instead. -/

namespace Sys2Proof

/-- One row of the opcode map (R49): a word is the row's when its bits under `mask` are `pattern`. -/
structure OpcodeRow where
  mnemonic : String
  pattern : CommandWord
  mask : CommandWord
  deriving DecidableEq, Repr

/-- The word is the row's. -/
def OpcodeRow.takes (r : OpcodeRow) (w : CommandWord) : Bool := w &&& r.mask == r.pattern

/-- The row of CT_PUSH for one value of `K` (R49): mask `0xFFFF0000 | ((1 << (15 - K)) - 1)`, match `0x02000000 | (K << 16)`. -/
def pushRow (k : Nat) : OpcodeRow :=
  { mnemonic := "CT_PUSH"
    pattern := 0x02000000#32 ||| (BitVec.ofNat 32 k <<< 16)
    mask := 0xFFFF0000#32 ||| BitVec.ofNat 32 (2 ^ (15 - k) - 1) }

/-- The opcode map of R49, CT_PUSH as its sixteen rows. -/
def opcodeMap : List OpcodeRow :=
  [ { mnemonic := "NOP", pattern := 0x00000000, mask := 0xFFFFFFFF },
    { mnemonic := "CT_CLEAR", pattern := 0x01000000, mask := 0xFFFFFFFF } ]
  ++ (List.range 16).map pushRow ++
  [ { mnemonic := "CT_COMMIT", pattern := 0x03000000, mask := 0xFFFFFF00 },
    { mnemonic := "SET_TOTAL_LO", pattern := 0x04000000, mask := 0xFFFF0000 },
    { mnemonic := "SET_TOTAL_HI", pattern := 0x05000000, mask := 0xFFFF0000 },
    { mnemonic := "START", pattern := 0x06000000, mask := 0xFFFFFFFF },
    { mnemonic := "ABORT", pattern := 0x07000000, mask := 0xFFFFFFFF } ]

/-- The word is one of the eight commands: some row of R49 takes it. -/
def isCommandWord (w : CommandWord) : Bool := opcodeMap.any fun r => r.takes w

/-- A well-formed instruction: CT_PUSH carries 1 to 16 bits (R45), and `Illegal` carries a word that no row takes (R48, R49).
The operands of every other instruction are as wide as their field, so nothing is left to check. -/
def Instr.wellFormed : Instr → Bool
  | .nop => true
  | .ctClear => true
  | .ctPush bits => decide (1 ≤ bits.length) && decide (bits.length ≤ 16)
  | .ctCommit _ => true
  | .setTotalLo _ => true
  | .setTotalHi _ => true
  | .start => true
  | .abort => true
  | .inByte _ => true
  | .inEos => true
  | .illegal w => !isCommandWord w

end Sys2Proof
end

