-- ==== Sys2Proof/Decode.lean ====
section
/-! DEFINITION. Decode.lean: the decoder of command words and input tokens, total on any bits (30_encoding.md R45 to R52), and the encoder.
A command word that no row takes decodes to `Illegal` (R52); a bit pattern of a width that no port has is rejected by name. -/

namespace Sys2Proof

/-- `w[23:0] = 0`: the reserved bits of format Z (R44). -/
def reservedZ (w : CommandWord) : Bool := w.extractLsb' 0 24 == 0

/-- `w[23:16] = 0`: the reserved bits of format I (R44). -/
def reservedI (w : CommandWord) : Bool := w.extractLsb' 16 8 == 0

/-- `w[23:8] = 0`: the reserved bits of format S (R44). -/
def reservedS (w : CommandWord) : Bool := w.extractLsb' 8 16 == 0

/-- `K = w[19:16]` of format P; the push count is `K + 1` (R45). -/
def pushK (w : CommandWord) : Nat := (w.extractLsb' 16 4).toNat

/-- `w[23:20] = 0` and `w[14 - K : 0] = 0`: the reserved bits of format P (R44, R45); no low bit is reserved when `K = 15`. -/
def reservedP (w : CommandWord) : Bool := w.extractLsb' 20 4 == 0 && w.toNat % 2 ^ (15 - pushK w) == 0

/-- `push_bits(w)` (R45): the `K + 1` bits from `BITS[15]` downwards. -/
def pushBits (w : CommandWord) : BitString := (List.range (pushK w + 1)).map fun i => w.getLsbD (15 - i)

/-- The decoder of command words (R52). -/
def decodeCommand (w : CommandWord) : Instr :=
  match (w.extractLsb' 24 8).toNat with
  | 0x00 => if reservedZ w then .nop else .illegal w
  | 0x01 => if reservedZ w then .ctClear else .illegal w
  | 0x02 => if reservedP w then .ctPush (pushBits w) else .illegal w
  | 0x03 => if reservedS w then .ctCommit (w.extractLsb' 0 8) else .illegal w
  | 0x04 => if reservedI w then .setTotalLo (w.extractLsb' 0 16) else .illegal w
  | 0x05 => if reservedI w then .setTotalHi (w.extractLsb' 0 16) else .illegal w
  | 0x06 => if reservedZ w then .start else .illegal w
  | 0x07 => if reservedZ w then .abort else .illegal w
  | _ => .illegal w

/-- The decoder of input tokens (R50): bit 8 clear is IN_BYTE with its `DATA`, bit 8 set is IN_EOS, whose `DATA` is ignored. -/
def decodeToken (t : Token) : Instr := if t[8] then .inEos else .inByte (t.extractLsb' 0 8)

/-- The instruction a transfer stands for. -/
def decode : PortWord → Instr
  | .command w => decodeCommand w
  | .token t => decodeToken t

/-- Why a bit pattern is no transfer of this block. -/
inductive DecodeError where
  /-- No port of the block takes patterns of this width: command words have 32 bits (R43), tokens 9 (R50). -/
  | noPortOfThisWidth
  /-- A bit stands above the word's 32 or the token's 9 bits. -/
  | bitsAboveTheWord
  deriving DecidableEq, Repr

/-- The transfer whose bits are `w`, from the width its row has: 32 bits for a command word, and 9 bits (16 in whole bytes)
for a token (DESIGN CHOICE, notes/assumptions/8, safe). -/
def transferOfBits (nbits w : Nat) : Except DecodeError PortWord :=
  if nbits = 32 then
    if w < 2 ^ 32 then .ok (.command (BitVec.ofNat 32 w)) else .error .bitsAboveTheWord
  else if nbits = 9 ∨ nbits = 16 then
    if w < 2 ^ 9 then .ok (.token (BitVec.ofNat 9 w)) else .error .bitsAboveTheWord
  else .error .noPortOfThisWidth

/-- The instruction the decoder reads from a row's bits, numbered as spec/opcode_table.json numbers them. -/
def decodeTableWord (nbits w : Nat) : Option Instr :=
  match transferOfBits nbits w with
  | .ok p => some (decode p)
  | .error _ => none

/-- The bits of `p` laid left-aligned in `n` bits, most significant first, zeros below: `sum over i of (p.i << (n - 1 - i))` (R45, R31). -/
def alignLeft (n : Nat) : BitString → Nat
  | [] => 0
  | b :: p => (if b then 2 ^ (n - 1) else 0) + alignLeft (n - 1) p

/-- `encode_push(p)` (R45): `0x02`, four zeros, `K = |p| - 1`, then the bits left-aligned in `BITS`. -/
def encodePush (p : BitString) : CommandWord :=
  0x02#8 ++ 0#4 ++ BitVec.ofNat 4 (p.length - 1) ++ BitVec.ofNat 16 (alignLeft 16 p)

/-- The token of a payload byte (R50). -/
def byteToken (d : Byte) : Token := 0#1 ++ d

/-- The end-of-stream token with its ignored `DATA` bits zero (R50, R53). -/
def eosToken : Token := 0x100

/-- The encoder, from the formats of R44, the opcodes of R49 and the tokens of R50. -/
def encode : Instr → PortWord
  | .nop => .command (0x00#8 ++ 0#24)
  | .ctClear => .command (0x01#8 ++ 0#24)
  | .ctPush p => .command (encodePush p)
  | .ctCommit sym => .command (0x03#8 ++ 0#16 ++ sym)
  | .setTotalLo imm => .command (0x04#8 ++ 0#8 ++ imm)
  | .setTotalHi imm => .command (0x05#8 ++ 0#8 ++ imm)
  | .start => .command (0x06#8 ++ 0#24)
  | .abort => .command (0x07#8 ++ 0#24)
  | .inByte d => .token (byteToken d)
  | .inEos => .token eosToken
  | .illegal w => .command w

end Sys2Proof
end

