-- ==== Sys2Proof/Config.lean ====
section
/-! DEFINITION. Config.lean: the parameters an implementation fixes (00_scope.md R4 to R6) and the one free value of the model. -/

namespace Sys2Proof

/-- The two open parameters of the block. No rule writes them, so no step changes them.
They are carried by the state (DESIGN CHOICE, notes/assumptions/3, unsafe for a claim about State.reset alone), and a statement about every state holds for every parameter value. -/
structure Params where
  /-- `MAXLEN`, the largest storable code length in bits (R5). -/
  maxLen : Nat
  /-- `OUT_DEPTH`, the number of symbols the output queue holds (R6). -/
  outDepth : Nat
  deriving DecidableEq, Repr

/-- The constraints of R5 (`1 <= MAXLEN <= 255`) and R6 (`OUT_DEPTH >= 1`). -/
abbrev Params.wf (p : Params) : Prop := 1 ≤ p.maxLen ∧ p.maxLen ≤ 255 ∧ 1 ≤ p.outDepth

/-- The reference values: `MAXLEN = 255` (R5) and `OUT_DEPTH = 1` (R6). -/
def Params.reference : Params := { maxLen := 255, outDepth := 1 }

/-- DESIGN CHOICE (notes/assumptions/5), safe: what `matchSym(p)` is when MORE THAN ONE valid entry has the code `p`.
R37 gives a value for exactly one such entry and for none, and no other.
No decode meets the case (START refuses such a table, R38, R64), so it shows only in states that no run reaches.
It is a free value of the valid codes and of `p`: it has no body, and nothing can be proved about it. -/
opaque Config.sharedCodeMatch : List (Byte × BitString) → BitString → Option Byte

end Sys2Proof
end

