-- ==== Sys2Proof/Machine/State.lean ====
section
/-! DEFINITION. Machine/State.lean: all the state the spec gives the block (10_state.md R12), the host's side of its ports, and reset. -/

namespace Sys2Proof.Machine

/-- `STATE`, 2 bits, all four values legal (R13). Its number is `FsmState.code` in Flags.lean. -/
inductive FsmState where
  /-- 0: no decode in progress, configuration allowed. -/
  | idle
  /-- 1: a decode is in progress, the FSM steps. -/
  | run
  /-- 2: the last decode reached its target count. -/
  | done
  /-- 3: the last operation stopped with the error in `ERR`. -/
  | error
  deriving DecidableEq, Repr

/-- `ERR`, 4 bits; the values 7 to 15 are reserved and never produced (R14, R92), so they are no constructors. -/
inductive ErrCode where
  /-- 0, `NONE`. -/
  | noError
  /-- 1, `TRUNCATED` (R86). -/
  | truncated
  /-- 2, `STRUCT` (R87). -/
  | struct
  /-- 3, `TABLE_CONFLICT` (R88). -/
  | tableConflict
  /-- 4, `CODE_TOO_LONG` (R89). -/
  | codeTooLong
  /-- 5, `ILLEGAL_CMD` (R90). -/
  | illegalCmd
  /-- 6, `BUSY` (R91). -/
  | busy
  deriving DecidableEq, Repr

/-- One code-table entry (R18): the valid bit `V`, the length `LEN` and the code `CODE`.
`LEN` is stored beside `CODE`, as R12 lists it (DEDUCED, notes/assumptions/7, safe). -/
structure Entry where
  v : Bool
  len : BitVec 8
  code : BitString
  deriving DecidableEq, Repr

/-- An entry that takes no part in decoding: `V = 0`, `LEN = 0`, `CODE = ε` (R18). -/
def Entry.invalid : Entry := { v := false, len := 0, code := [] }

/-- The code table `CT`, the block's one address space (R18, R30): the entries in order of their symbols.
A symbol that is not listed has the entry `Entry.invalid`; the canonical form is `Table.wf` in Ops.lean
(DESIGN CHOICE, notes/assumptions/6, safe). -/
abbrev Table := List (Byte × Entry)

/-- The state vector of HDEC: the tuple of R12 and nothing else. -/
structure Block where
  /-- `STATE` (R13). -/
  state : FsmState
  /-- `ERR` (R14). -/
  err : ErrCode
  /-- `TOTAL`, the target symbol count, 32 bits (R4, R16). -/
  total : BitVec 32
  /-- `COUNT`, the decoded-count, 32 bits (R4, R17). -/
  count : BitVec 32
  /-- `CT`, the code table (R18, R19). -/
  ct : Table
  /-- `STG_LEN`, the number of staged code bits, 8 bits (R20). -/
  stgLen : BitVec 8
  /-- `STG`, the staged code (R20). -/
  stg : BitString
  /-- `CUR`, the matcher cursor: the edges from the root to the current node (R21, R27). -/
  cur : BitString
  /-- `BITBUF`, the unread bits of the current payload byte, the next one at bit 7 (R22). -/
  bitbuf : BitVec 8
  /-- `BITCNT`, the number of unread bits in `BITBUF`, 4 bits (R22). -/
  bitcnt : BitVec 4
  /-- `EOSF`, end-of-stream seen (R23). -/
  eosf : Bool
  /-- `OUTQ`, the output queue, oldest symbol first (R24). -/
  outq : List Byte
  deriving DecidableEq, Repr

/-- Reset values of every element (R29, and the reset column of R12). -/
def Block.reset : Block :=
  { state := .idle, err := .noError, total := 0, count := 0, ct := [], stgLen := 0, stg := [], cur := [],
    bitbuf := 0, bitcnt := 0, eosf := false, outq := [] }

/-- Whose transition is attempted next: the interleaving of R11, as plain data (DESIGN CHOICE, notes/assumptions/1, safe). -/
inductive Turn where
  /-- The host issues its next command word (R83). -/
  | command
  /-- The host offers its next input token (R79). -/
  | token
  /-- The host pops a symbol (R82). -/
  | pop
  /-- The host asserts reset (R100). -/
  | reset
  /-- The FSM takes its step (R66). -/
  | fsm
  deriving DecidableEq, Repr

/-- The host agent of R11, as the block meets it on its three ports. None of it is state of the block. -/
structure HostSide where
  /-- The command words the host has not issued yet, in the order it issues them (R39). -/
  cmds : List CommandWord
  /-- The tokens the block has not accepted, in the order the host offers them (R39, R79). -/
  tokens : List Token
  /-- The turns to come. When they run out the FSM goes on alone (R111). -/
  turns : List Turn
  /-- The symbols the host has received by pops, oldest first (R82). -/
  received : List Byte
  deriving DecidableEq, Repr

/-- A host that has nothing to send and has received nothing (DESIGN CHOICE, notes/assumptions/13, unsafe). -/
def HostSide.quiet : HostSide := { cmds := [], tokens := [], turns := [], received := [] }

/-- The whole model state: the implementation's parameters, the block and the host's side of its ports. -/
structure State where
  params : Params
  block : Block
  host : HostSide
  deriving DecidableEq, Repr

/-- The machine right after reset (R29, R100, R101), with the reference parameters (R5, R6) and a quiet host. -/
def State.reset : State := { params := .reference, block := .reset, host := .quiet }

/-- Why a step stops. -/
inductive Fault where
  /-- Raised by `step` alone, when the turns have run out and the FSM has no enabled step: the stuck state of
  93_implementation_defined.md I17 and R71, and of every state in which only the host can act. Safe: the model stops. -/
  | stuck
  deriving DecidableEq, Repr

/-- Why the model gives no meaning. No arm of `exec` uses it: every row has its meaning. -/
inductive Refusal where
  /-- Raised by an arm of `exec` whose instruction has no meaning yet (none here). Safe: the model stops. -/
  | notModelled (mnemonic : String)
  deriving DecidableEq, Repr

end Sys2Proof.Machine
end

