-- ==== Sys2Proof/Machine/Ops.lean ====
section
/-! DEFINITION. Machine/Ops.lean: the named operations over the table, the staging register, the bit reader and the output queue;
raising an error (R85) and leaving it (R65); the gating every command goes through (R56). -/

namespace Sys2Proof.Machine

/-- The outcome type of every meaning. -/
abbrev Result := Host.Outcome State Fault Refusal

/-! ### The code table as storage (20_memory.md R30) -/

/-- The canonical form: symbols strictly rising, and no listed entry that an unlisted symbol would read as. -/
abbrev Table.wf (t : Table) : Prop :=
  t.Pairwise (fun a b => a.1.toNat < b.1.toNat) ∧ ∀ e ∈ t, e.2 ≠ Entry.invalid

/-- `CT[s]` (R10): the entry of a symbol; an unlisted symbol has the invalid entry. -/
def Table.read : Table → Byte → Entry
  | [], _ => .invalid
  | (k, e) :: t, s => if k = s then e else Table.read t s

/-- `CT[s] <- e` (R10, R19): the entry of a symbol is replaced, the canonical form kept. -/
def Table.write : Table → Byte → Entry → Table
  | [], s, e => if e = .invalid then [] else [(s, e)]
  | (k, f) :: t, s, e =>
    if s.toNat < k.toNat then (if e = .invalid then (k, f) :: t else (s, e) :: (k, f) :: t)
    else if s = k then (if e = .invalid then t else (s, e) :: t)
    else (k, f) :: Table.write t s e

/-- The table after every entry has been made invalid (R58). -/
def Table.cleared : Table := []

/-- `VC`, the valid codes (R37): the pairs `(s, CT[s].CODE)` with `CT[s].V = 1`. -/
def validCodes (t : Table) : List (Byte × BitString) :=
  t.filterMap fun e => if e.2.v then some (e.1, e.2.code) else none

/-! ### Errors (60_exceptions.md) -/

/-- `raise E` (R85): `STATE <- ERROR`, `ERR <- code(E)`, and no other element changes. -/
def raise (e : ErrCode) (b : Block) : Block := { b with state := .error, err := e }

/-- The return from an error, and the end of a decode by the host (R65): `STATE <- IDLE`, `ERR <- 0`, and no other element changes;
the reader and the cursor are kept exactly (DESIGN CHOICE among I15's, notes/assumptions/12, safe). -/
def toIdle (b : Block) : Block := { b with state := .idle, err := .noError }

/-! ### What a command goes through (40_table_commands.md R56) -/

/-- The gating of R56 for a legal command that performs `perform`: in `ERROR` only a command with `inError` performs and every
other one has no effect; in `RUN` a command without `inRun` raises BUSY; in `IDLE` and `DONE` every legal command performs. -/
def gate (inError inRun : Bool) (perform : Block → Block) (b : Block) : Block :=
  match b.state with
  | .error => if inError then perform b else b
  | .run => if inRun then perform b else raise .busy b
  | .idle => perform b
  | .done => perform b

/-- The gating of R56 for an illegal word: ignored in `ERROR`, and ILLEGAL_CMD in every other state (R49, R90). -/
def gateIllegal (b : Block) : Block :=
  match b.state with
  | .error => b
  | .run => raise .illegalCmd b
  | .idle => raise .illegalCmd b
  | .done => raise .illegalCmd b

/-- A transition that changes the block alone. -/
def State.onBlock (f : Block → Block) (s : State) : State := { s with block := f s.block }

/-! ### The staging register (R20) -/

/-- `STG <- ε; STG_LEN <- 0`. -/
def emptyStaging (b : Block) : Block := { b with stg := [], stgLen := 0 }

/-- `STG <- STG ++ p; STG_LEN <- STG_LEN + k` (R59). -/
def stage (p : BitString) (b : Block) : Block :=
  { b with stg := b.stg ++ p, stgLen := b.stgLen + BitVec.ofNat 8 p.length }

/-! ### The bit reader (R22, R23) -/

/-- A reader that has pulled nothing yet: `BITBUF <- 0; BITCNT <- 0; EOSF <- 0` (R64). -/
def emptyReader (b : Block) : Block := { b with bitbuf := 0, bitcnt := 0, eosf := false }

/-- The reader takes a payload byte: `BITBUF <- d; BITCNT <- 8` (R80). -/
def loadByte (d : Byte) (b : Block) : Block := { b with bitbuf := d, bitcnt := 8 }

/-- The reader sees the end of the stream: `EOSF <- 1` (R81). -/
def seeEos (b : Block) : Block := { b with eosf := true }

/-- `BITBUF[7]`, the most significant unread bit (R69, R31). -/
def nextBit (b : Block) : Bool := b.bitbuf[7]

/-- The bit is consumed: `BITBUF <- (BITBUF << 1)[7:0]; BITCNT <- BITCNT - 1` (R69). -/
def dropBit (b : Block) : Block := { b with bitbuf := b.bitbuf <<< 1, bitcnt := b.bitcnt - 1 }

/-! ### The cursor (R21) and the output queue (R24) -/

/-- `CUR <- p`. -/
def moveCursor (p : BitString) (b : Block) : Block := { b with cur := p }

/-- `push(OUTQ, s); COUNT <- COUNT + 1; CUR <- ε` (R68). -/
def emit (s : Byte) (b : Block) : Block :=
  { b with outq := b.outq ++ [s], count := b.count + 1, cur := [] }

end Sys2Proof.Machine
end

