-- ==== Sys2Proof/Machine/Operands.lean ====
section
/-! DEFINITION. Machine/Operands.lean: what the meanings do with their operands (30_encoding.md R45 to R47).
The block has three operand forms: a bit string of 1 to 16 code bits, a symbol, and a 16-bit half of TOTAL.
It has no register operand (R26) and no memory operand (R30). -/

namespace Sys2Proof.Machine

/-- `STG_LEN + k > MAXLEN`, the sum in 9 bits without wrap (R59). -/
def stagingOverflows (p : Params) (bits : BitString) (b : Block) : Bool :=
  decide (p.maxLen < b.stgLen.toNat + bits.length)

/-- The entry CT_COMMIT writes: `(V = 1, LEN = STG_LEN, CODE = STG)` (R60). -/
def stagedEntry (b : Block) : Entry := { v := true, len := b.stgLen, code := b.stg }

/-- `TOTAL[15:0] <- imm`, the high half unchanged (R62). -/
def setLowHalf (imm : BitVec 16) (total : BitVec 32) : BitVec 32 := total.extractLsb' 16 16 ++ imm

/-- `TOTAL[31:16] <- imm`, the low half unchanged (R63). -/
def setHighHalf (imm : BitVec 16) (total : BitVec 32) : BitVec 32 := imm ++ total.extractLsb' 0 16

/-- The bit string a payload byte stands for: most significant bit first (R31). -/
def byteBits (d : Byte) : BitString := (List.range 8).map fun i => d.getLsbD (7 - i)

end Sys2Proof.Machine
end

