-- ==== Sys2Proof/Machine/Tree.lean ====
section
/-! DEFINITION. Machine/Tree.lean: the code tree the table stands for (20_memory.md R37) and the prefix-code check (R38). -/

namespace Sys2Proof.Machine

/-- `isNode(p)` (R37): the root, and every prefix of a valid code. -/
def isNode (t : Table) (p : BitString) : Bool :=
  p.isEmpty || (validCodes t).any fun e => p.isPrefixOf e.2

/-- `hasChild(p)` (R37): `p` is a proper prefix of a valid code. -/
def hasChild (t : Table) (p : BitString) : Bool :=
  (validCodes t).any fun e => p.isPrefixOf e.2 && p != e.2

/-- The symbols whose valid code is `p`. -/
def symbolsAt (t : Table) (p : BitString) : List Byte :=
  (validCodes t).filterMap fun e => if e.2 = p then some e.1 else none

/-- `matchSym(p)` (R37). For more than one such symbol the rule gives no value: the free value of notes/assumptions/5. -/
def matchSym (t : Table) (p : BitString) : Option Byte :=
  match symbolsAt t p with
  | [] => none
  | [s] => some s
  | _ :: _ :: _ => Config.sharedCodeMatch (validCodes t) p

/-- No code of the list is a prefix of a later one or has a later one as its prefix. -/
def apart : List (Byte × BitString) → Bool
  | [] => true
  | e :: l => l.all (fun f => !e.2.isPrefixOf f.2 && !f.2.isPrefixOf e.2) && apart l

/-- `conflictFree(CT)` (R38): no two distinct valid entries have one code a prefix of the other, equal codes included. -/
def conflictFree (t : Table) : Bool := apart (validCodes t)

end Sys2Proof.Machine
end

