-- ==== Sys2Proof/Machine/ControlCommands.lean ====
section
/-! DEFINITION. Machine/ControlCommands.lean: SET_TOTAL_LO, SET_TOTAL_HI, START and ABORT (41_control_commands.md R62 to R65). -/

namespace Sys2Proof.Machine

/-- `perform SET_TOTAL_LO(imm)` (R62). -/
def performSetTotalLo (imm : BitVec 16) (b : Block) : Block := { b with total := setLowHalf imm b.total }

/-- `perform SET_TOTAL_HI(imm)` (R63). -/
def performSetTotalHi (imm : BitVec 16) (b : Block) : Block := { b with total := setHighHalf imm b.total }

/-- What START does to a conflict-free table (R64): a decode begins at the root, with an empty reader and the count at 0. -/
def beginDecode (b : Block) : Block := emptyReader { b with count := 0, cur := [], state := .run }

/-- `perform START` (R64). -/
def performStart (b : Block) : Block :=
  if conflictFree b.ct then beginDecode b else raise .tableConflict b

/-- SET_TOTAL_LO (R62). -/
def execSetTotalLo (imm : BitVec 16) (s : State) : Result :=
  .next (s.onBlock (gate false false (performSetTotalLo imm)))

/-- SET_TOTAL_HI (R63). -/
def execSetTotalHi (imm : BitVec 16) (s : State) : Result :=
  .next (s.onBlock (gate false false (performSetTotalHi imm)))

/-- START (R64). -/
def execStart (s : State) : Result := .next (s.onBlock (gate false false performStart))

/-- ABORT (R65): performs in every state, `ERROR` included. -/
def execAbort (s : State) : Result := .next (s.onBlock (gate true true toIdle))

end Sys2Proof.Machine
end

