-- ==== Sys2Proof/Machine/Flags.lean ====
section
/-! DEFINITION. Machine/Flags.lean: the status outputs of the block, its only flags (10_state.md R13, R14, R25, R28). -/

namespace Sys2Proof.Machine

/-- The number of a state (R13). -/
def FsmState.code : FsmState → BitVec 2
  | .idle => 0
  | .run => 1
  | .done => 2
  | .error => 3

/-- The number of an error (R14). -/
def ErrCode.code : ErrCode → BitVec 4
  | .noError => 0
  | .truncated => 1
  | .struct => 2
  | .tableConflict => 3
  | .codeTooLong => 4
  | .illegalCmd => 5
  | .busy => 6

/-- `in_ready` (R79). -/
def inReady (b : Block) : Bool :=
  decide (b.state = .run) && decide (b.count ≠ b.total) && decide (matchSym b.ct b.cur = none)
    && decide (b.bitcnt = 0) && !b.eosf

/-- `out_valid` (R25, R82). -/
def outValid (b : Block) : Bool := !b.outq.isEmpty

/-- `out_data`: the head of the queue, 0 when it is empty (R25, R82). -/
def outData (b : Block) : Byte := b.outq.headD 0

/-- `cmd_ready` is always 1 (R83). -/
def cmdReady (_ : Block) : Bool := true

/-- All the host can observe between transitions (R25). -/
structure Status where
  state : BitVec 2
  err : BitVec 4
  count : BitVec 32
  inReady : Bool
  outValid : Bool
  outData : Byte
  cmdReady : Bool
  deriving DecidableEq, Repr

/-- The status outputs of a block (R25). -/
def status (b : Block) : Status :=
  { state := b.state.code, err := b.err.code, count := b.count, inReady := inReady b,
    outValid := outValid b, outData := outData b, cmdReady := cmdReady b }

end Sys2Proof.Machine
end

