-- ==== Sys2Proof/Machine/StreamPorts.lean ====
section
/-! DEFINITION. Machine/StreamPorts.lean: the payload input port and the symbol output port (43_stream_ports.md R79 to R82). -/

namespace Sys2Proof.Machine

/-- A token is accepted exactly when `in_ready = 1`; otherwise nothing in the block changes and no error is raised (R79). -/
def acceptWhenReady (accept : Block → Block) (b : Block) : Block := if inReady b then accept b else b

/-- IN_BYTE (R80). -/
def execInByte (d : Byte) (s : State) : Result := .next (s.onBlock (acceptWhenReady (loadByte d)))

/-- IN_EOS (R81). -/
def execInEos (s : State) : Result := .next (s.onBlock (acceptWhenReady seeEos))

/-- The output pop (R82): the head of the queue and the block without it; none when `out_valid = 0`. -/
def popOutput (b : Block) : Option (Byte × Block) :=
  match b.outq with
  | [] => none
  | s :: q => some (s, { b with outq := q })

end Sys2Proof.Machine
end

