-- ==== Sys2Proof/Machine/TableCommands.lean ====
section
/-! DEFINITION. Machine/TableCommands.lean: NOP, CT_CLEAR, CT_PUSH, CT_COMMIT and the illegal word (40_table_commands.md R56 to R60). -/

namespace Sys2Proof.Machine

/-- `perform CT_CLEAR` (R58). -/
def performCtClear (b : Block) : Block := emptyStaging { b with ct := Table.cleared }

/-- `perform CT_PUSH(b)` (R59). -/
def performCtPush (p : Params) (bits : BitString) (b : Block) : Block :=
  if stagingOverflows p bits b then raise .codeTooLong b else stage bits b

/-- `perform CT_COMMIT(sym)` (R60). -/
def performCtCommit (sym : Byte) (b : Block) : Block :=
  emptyStaging { b with ct := Table.write b.ct sym (stagedEntry b) }

/-- NOP (R57): performs in every state but `ERROR`, where it is ignored, and writes nothing. -/
def execNop (s : State) : Result := .next (s.onBlock (gate false true id))

/-- CT_CLEAR (R58). -/
def execCtClear (s : State) : Result := .next (s.onBlock (gate false false performCtClear))

/-- CT_PUSH (R59). -/
def execCtPush (bits : BitString) (s : State) : Result :=
  .next (s.onBlock (gate false false (performCtPush s.params bits)))

/-- CT_COMMIT (R60). -/
def execCtCommit (sym : Byte) (s : State) : Result :=
  .next (s.onBlock (gate false false (performCtCommit sym)))

/-- An illegal command word (R49, R56, R90): the word itself is not kept. -/
def execIllegal (_w : CommandWord) (s : State) : Result := .next (s.onBlock gateIllegal)

end Sys2Proof.Machine
end

