-- ==== Sys2Proof/Machine/Dispatch.lean ====
section
/-! DEFINITION. Machine/Dispatch.lean: one arm per row of spec/opcode_table.json. -/

namespace Sys2Proof.Machine

def exec (i : Instr) (s : State) : Host.Outcome State Fault Refusal :=
  match i with
  | .nop => Sys2Proof.Machine.execNop s
  | .ctClear => Sys2Proof.Machine.execCtClear s
  | .ctPush bits => Sys2Proof.Machine.execCtPush bits s
  | .ctCommit sym => Sys2Proof.Machine.execCtCommit sym s
  | .setTotalLo imm => Sys2Proof.Machine.execSetTotalLo imm s
  | .setTotalHi imm => Sys2Proof.Machine.execSetTotalHi imm s
  | .start => Sys2Proof.Machine.execStart s
  | .abort => Sys2Proof.Machine.execAbort s
  | .inByte data => Sys2Proof.Machine.execInByte data s
  | .inEos => Sys2Proof.Machine.execInEos s
  | .illegal w => Sys2Proof.Machine.execIllegal w s

end Sys2Proof.Machine
end

