-- ==== Sys2Proof/Machine/Fsm.lean ====
section
/-! DEFINITION. Machine/Fsm.lean: the decode FSM and its code matcher (42_decode_fsm.md R66 to R71). -/

namespace Sys2Proof.Machine

/-- What R66 decides in a state. -/
inductive FsmMove where
  /-- `STATE` is not `RUN`: the FSM has no step. -/
  | none
  /-- The DONE step (R67). -/
  | done
  /-- The EMIT step (R68) of a symbol. -/
  | emit (s : Byte)
  /-- A symbol is matched and the output queue is full: EMIT holds (R68, R106). -/
  | hold
  /-- The BIT step (R69). -/
  | bit
  /-- The TRUNCATED step (R70). -/
  | truncated
  /-- WAIT: a bit is needed and there is none (R71). -/
  | wait
  deriving DecidableEq, Repr

/-- Which step the FSM takes, tested in the order of R66. -/
def fsmMove (p : Params) (b : Block) : FsmMove :=
  if b.state ≠ .run then .none
  else if b.count = b.total then .done
  else match matchSym b.ct b.cur with
    | some s => if b.outq.length < p.outDepth then .emit s else .hold
    | none => if b.bitcnt ≠ 0 then .bit else if b.eosf then .truncated else .wait

/-- The DONE step (R67): `STATE <- DONE`. -/
def doneStep (b : Block) : Block := { b with state := .done }

/-- The BIT step (R69): the bit is consumed; the cursor descends, or the child is absent and STRUCT is raised with `CUR` unchanged. -/
def bitStep (b : Block) : Block :=
  if isNode b.ct (b.cur ++ [nextBit b]) then moveCursor (b.cur ++ [nextBit b]) (dropBit b)
  else raise .struct (dropBit b)

/-- The TRUNCATED step (R70). -/
def truncatedStep (b : Block) : Block := raise .truncated b

/-- The FSM's step, where one is enabled (R66). -/
def fsmStep (p : Params) (b : Block) : Option Block :=
  match fsmMove p b with
  | .none => Option.none
  | .done => some (doneStep b)
  | .emit s => some (emit s b)
  | .hold => Option.none
  | .bit => some (bitStep b)
  | .truncated => some (truncatedStep b)
  | .wait => Option.none

end Sys2Proof.Machine
end

