-- ==== Sys2Proof/Machine/Turns.lean ====
section
/-! DEFINITION. Machine/Turns.lean: what one turn of an agent does (00_scope.md R11).
Each turn is at most one atomic transition. Where the turn's transition is not enabled the agent waits and nothing of the block changes
(`hold`, R10; DEDUCED, notes/assumptions/2, safe). -/

namespace Sys2Proof.Machine

/-- The state with the turns that remain after this one. -/
def State.withTurns (ts : List Turn) (s : State) : State := { s with host := { s.host with turns := ts } }

/-- The host issues its next command word, which executes by R56 and R83; a host with no word left waits. -/
def commandTurn (s : State) : Result :=
  match s.host.cmds with
  | [] => .next s
  | w :: ws => exec (decodeCommand w) { s with host := { s.host with cmds := ws } }

/-- The host offers its next token. An accepted token is consumed, and one the block does not accept stays with the host (R36, R79). -/
def tokenTurn (s : State) : Result :=
  match s.host.tokens with
  | [] => .next s
  | t :: ts =>
    if inReady s.block then exec (decodeToken t) { s with host := { s.host with tokens := ts } }
    else exec (decodeToken t) s

/-- The host pops a symbol and receives it; with `out_valid = 0` there is no transition (R82). -/
def popTurn (s : State) : Result :=
  match popOutput s.block with
  | none => .next s
  | some (d, b) => .next { s with block := b, host := { s.host with received := s.host.received ++ [d] } }

/-- Reset, in any state (R100). What the host holds stays with the host, and the parameters are the hardware's own
(DEDUCED, notes/assumptions/13, safe). -/
def resetTurn (s : State) : Result := .next (s.onBlock fun _ => Block.reset)

/-- The FSM takes its step if one is enabled, and waits otherwise (R66, R71). -/
def fsmTurn (s : State) : Result :=
  match fsmStep s.params s.block with
  | none => .next s
  | some b => .next (s.onBlock fun _ => b)

/-- The turns have run out: the FSM's enabled step is taken (R111); with none enabled the machine is stuck (I17)
(DESIGN CHOICE, notes/assumptions/1 and 16, safe). -/
def fsmAlone (s : State) : Result :=
  match fsmStep s.params s.block with
  | none => .fault .stuck
  | some b => .next (s.onBlock fun _ => b)

/-- The transition of a turn. -/
def takeTurn (t : Turn) (s : State) : Result :=
  match t with
  | .command => commandTurn s
  | .token => tokenTurn s
  | .pop => popTurn s
  | .reset => resetTurn s
  | .fsm => fsmTurn s

/-- One step: the next turn is used up and its transition taken. -/
def stepOnce (s : State) : Result :=
  match s.host.turns with
  | [] => fsmAlone s
  | t :: ts => takeTurn t (s.withTurns ts)

/-- The host is about to make this transfer: the word or token stands first in its queue, and the next turn is its own. -/
def State.aboutTo (p : PortWord) (s : State) : State :=
  match p with
  | .command w => { s with host := { s.host with cmds := w :: s.host.cmds, turns := .command :: s.host.turns } }
  | .token t => { s with host := { s.host with tokens := t :: s.host.tokens, turns := .token :: s.host.turns } }

end Sys2Proof.Machine
end

