-- ==== Sys2Proof/Machine/Step.lean ====
section
/-! DEFINITION. Machine/Step.lean: the step function of the machine, and placing an instruction where the next step takes it. -/

namespace Sys2Proof.Machine

/-- One step of the machine (R11): one turn of one agent. -/
def step (s : State) : Host.Outcome State Fault Refusal := stepOnce s

/-- `s` with the instruction of a table row's bits as the host's next transfer (DESIGN CHOICE, notes/assumptions/4, safe).
A width that no port has is no transfer, and the state is left as it is. -/
def State.withFetchWord (s : State) (nbits w : Nat) : State :=
  match transferOfBits nbits w with
  | .ok p => s.aboutTo p
  | .error _ => s

end Sys2Proof.Machine
end

