-- ==== Sys2Proof/Machine/Pseudo.lean ====
section
/-! DEFINITION. Machine/Pseudo.lean: the pseudo-instructions (30_encoding.md R54), the payload (20_memory.md R42),
the boot sequence (70_reset_and_hazards.md R102) and the host's convention for a parsed file (R103). -/

namespace Sys2Proof.Machine

/-- `c` cut into chunks of `n` bits from the start, the last one holding what remains; `fuel` bounds their number. -/
def chunksWithin (n : Nat) : Nat → BitString → List BitString
  | 0, _ => []
  | _ + 1, [] => []
  | fuel + 1, b :: c => (b :: c).take n :: chunksWithin n fuel ((b :: c).drop n)

/-- `c` cut into chunks of `n` bits (`n >= 1`) from the start. -/
def chunksOf (n : Nat) (c : BitString) : List BitString := chunksWithin n c.length c

/-- `CT_ENTRY sym, "c"` (R54): one CT_PUSH for each chunk of 16 bits, then CT_COMMIT. -/
def ctEntry (sym : Byte) (c : BitString) : List Instr := (chunksOf 16 c).map .ctPush ++ [.ctCommit sym]

/-- `SET_TOTAL n` (R54). -/
def setTotal (n : BitVec 32) : List Instr :=
  [.setTotalLo (n.extractLsb' 0 16), .setTotalHi (n.extractLsb' 16 16)]

/-- `LOAD_TABLE (s1, "c1"), ..., (sN, "cN")` (R54). -/
def loadTable (lines : List (Byte × BitString)) : List Instr :=
  .ctClear :: lines.flatMap fun e => ctEntry e.1 e.2

/-- `STREAM v1, ..., vm` (R54). -/
def stream (vs : List Byte) : List Instr := vs.map .inByte ++ [.inEos]

/-- The commands in order, each one atomic transition with none between them (R39). -/
def issue : List Instr → State → Result
  | [], s => .next s
  | i :: is, s =>
    match exec i s with
    | .next s' => issue is s'
    | .fault r => .fault r
    | .refused r => .refused r

/-- The bytes of a bit string: most significant bit first, zero bits up to the byte boundary (R31, R42). -/
def packBits (c : BitString) : List Byte := (chunksOf 8 c).map fun p => BitVec.ofNat 8 (alignLeft 8 p)

/-- The codes of a symbol sequence, back to back (R42). -/
def payloadBits (t : Table) (syms : List Byte) : BitString := syms.flatMap fun s => (Table.read t s).code

/-- The payload the source's compressor writes for a symbol sequence (R42). -/
def payload (t : Table) (syms : List Byte) : List Byte := packBits (payloadBits t syms)

/-- Steps (1) to (4) of the boot sequence (R102), the table cleared by CT_CLEAR: load the table, set the count, START. -/
def bootCommands (lines : List (Byte × BitString)) (n : BitVec 32) : List Instr :=
  loadTable lines ++ setTotal n ++ [.start]

/-- A file of the source's format after the host has split it (R103): the count, the `<asciiCodeOfSymbol> <code>` pairs
with what follows them on their lines discarded, and the remaining bytes
(DESIGN CHOICE, notes/assumptions/15, safe). -/
structure ParsedFile where
  totalSymbolCount : Nat
  lines : List (Nat × List Char)
  bytes : List Byte
  deriving DecidableEq, Repr

/-- A code field as a bit string, none at a character other than '0' and '1' (R32, R103). -/
def codeOfText : List Char → Option BitString
  | [] => some []
  | c :: cs =>
    if c = '0' then (codeOfText cs).map (false :: ·)
    else if c = '1' then (codeOfText cs).map (true :: ·)
    else none

/-- A header line as a table line, none for a symbol above 255 or a malformed code (R103). -/
def tableLine (l : Nat × List Char) : Option (Byte × BitString) :=
  if l.1 < 256 then (codeOfText l.2).map fun c => (BitVec.ofNat 8 l.1, c) else none

/-- The table lines of a header, none when one of them cannot be mapped. -/
def tableLines : List (Nat × List Char) → Option (List (Byte × BitString))
  | [] => some []
  | l :: ls =>
    match tableLine l, tableLines ls with
    | some e, some es => some (e :: es)
    | _, _ => none

/-- The transfers of a file (R103): the commands and the tokens.
None is the source's `MalformedHeaderError`, for which nothing is sent to the block. -/
def fileTransfers (f : ParsedFile) : Option (List Instr × List Instr) :=
  if f.totalSymbolCount < 2 ^ 32 then
    (tableLines f.lines).map fun ls => (bootCommands ls (BitVec.ofNat 32 f.totalSymbolCount), stream f.bytes)
  else none

end Sys2Proof.Machine
end

