-- ==== Sys2Proof/Machine/Assembler.lean ====
section
/-! DEFINITION. Machine/Assembler.lean: the assembler spelling of commands, tokens and pseudo-instructions (30_encoding.md R53, R54),
one command a line, `;` starting a comment.
Lexical details that R53 does not fix are DESIGN CHOICE (notes/assumptions/11, safe). -/

namespace Sys2Proof.Machine

/-- A piece of a line. -/
inductive Lexeme where
  /-- A mnemonic. -/
  | word (cs : List Char)
  /-- A number: decimal, hexadecimal `0x..`, or the value of a character in single quotes. -/
  | num (n : Nat)
  /-- What stands between double quotes. -/
  | text (cs : List Char)
  | comma
  | lpar
  | rpar
  deriving DecidableEq, Repr

/-- The value of a digit below 16. -/
def digitValue (c : Char) : Option Nat :=
  if '0' ≤ c ∧ c ≤ '9' then some (c.toNat - '0'.toNat)
  else if 'a' ≤ c ∧ c ≤ 'f' then some (c.toNat - 'a'.toNat + 10)
  else if 'A' ≤ c ∧ c ≤ 'F' then some (c.toNat - 'A'.toNat + 10)
  else none

/-- The value of a non-empty string of digits below `base`, on top of `acc`. -/
def digitsValue (base : Nat) : Nat → List Char → Option Nat
  | acc, [] => some acc
  | acc, c :: cs =>
    match digitValue c with
    | none => none
    | some d => if d < base then digitsValue base (acc * base + d) cs else none

/-- The value of a number as written (R53). -/
def numberValue : List Char → Option Nat
  | [] => none
  | '0' :: 'x' :: c :: cs => digitsValue 16 0 (c :: cs)
  | c :: cs => digitsValue 10 0 (c :: cs)

/-- A character of a mnemonic or of a number. -/
def isWordChar (c : Char) : Bool := c.isAlphanum || c == '_'

/-- The pieces of a line up to its comment; none when a character starts no piece. `fuel` bounds the number of pieces and spaces. -/
def lexLine : Nat → List Char → Option (List Lexeme)
  | 0, _ => none
  | _ + 1, [] => some []
  | fuel + 1, c :: cs =>
    if c = ';' then some []
    else if c = ' ' ∨ c = '\t' then lexLine fuel cs
    else if c = ',' then (lexLine fuel cs).map (Lexeme.comma :: ·)
    else if c = '(' then (lexLine fuel cs).map (Lexeme.lpar :: ·)
    else if c = ')' then (lexLine fuel cs).map (Lexeme.rpar :: ·)
    else if c = '\'' then
      match cs with
      | v :: '\'' :: rest => (lexLine fuel rest).map (Lexeme.num v.toNat :: ·)
      | _ => none
    else if c = '"' then
      match cs.dropWhile (· ≠ '"') with
      | _ :: rest => (lexLine fuel rest).map (Lexeme.text (cs.takeWhile (· ≠ '"')) :: ·)
      | [] => none
    else if c.isDigit then
      match numberValue (c :: cs.takeWhile isWordChar) with
      | some n => (lexLine fuel (cs.dropWhile isWordChar)).map (Lexeme.num n :: ·)
      | none => none
    else if isWordChar c then
      (lexLine fuel (cs.dropWhile isWordChar)).map (Lexeme.word (c :: cs.takeWhile isWordChar) :: ·)
    else none

/-- An 8-bit operand as written. -/
def byteOperand (n : Nat) : Option Byte := if n < 2 ^ 8 then some (BitVec.ofNat 8 n) else none

/-- A 16-bit operand as written. -/
def halfOperand (n : Nat) : Option (BitVec 16) := if n < 2 ^ 16 then some (BitVec.ofNat 16 n) else none

/-- The lines of a LOAD_TABLE: `(s1, "c1"), ..., (sN, "cN")` with `N >= 1`. -/
def tableOperand : List Lexeme → Option (List (Byte × BitString))
  | .lpar :: .num n :: .comma :: .text cs :: .rpar :: rest =>
    match tableLine (n, cs), rest with
    | none, _ => none
    | some e, [] => some [e]
    | some e, l :: more => if l = .comma then (tableOperand more).map (e :: ·) else none
  | _ => none

/-- The bytes of a STREAM: `v1, ..., vm` with `m >= 1`. -/
def streamOperand : List Lexeme → Option (List Byte)
  | .num n :: rest =>
    match byteOperand n, rest with
    | none, _ => none
    | some d, [] => some [d]
    | some d, l :: more => if l = .comma then (streamOperand more).map (d :: ·) else none
  | _ => none

/-- The instructions of a line's pieces (R53, R54); none when they spell nothing. -/
def assembleLexemes : List Lexeme → Option (List Instr)
  | [] => some []
  | .word m :: ops =>
    if m = "NOP".toList ∧ ops = [] then some [.nop]
    else if m = "CT_CLEAR".toList ∧ ops = [] then some [.ctClear]
    else if m = "START".toList ∧ ops = [] then some [.start]
    else if m = "ABORT".toList ∧ ops = [] then some [.abort]
    else if m = "EOS".toList ∧ ops = [] then some [.inEos]
    else if m = "LOAD_TABLE".toList then if ops = [] then some (loadTable []) else (tableOperand ops).map loadTable
    else if m = "STREAM".toList then if ops = [] then some (stream []) else (streamOperand ops).map stream
    else match ops with
      | [.text cs] =>
        if m = "CT_PUSH".toList then
          match codeOfText cs with
          | some p => if (Instr.ctPush p).wellFormed then some [.ctPush p] else none
          | none => none
        else none
      | [.num n] =>
        if m = "CT_COMMIT".toList then (byteOperand n).map fun s => [.ctCommit s]
        else if m = "SET_TOTAL_LO".toList then (halfOperand n).map fun h => [.setTotalLo h]
        else if m = "SET_TOTAL_HI".toList then (halfOperand n).map fun h => [.setTotalHi h]
        else if m = "BYTE".toList then (byteOperand n).map fun d => [.inByte d]
        else if m = "SET_TOTAL".toList then if n < 2 ^ 32 then some (setTotal (BitVec.ofNat 32 n)) else none
        else none
      | [.num n, .comma, .text cs] =>
        if m = "CT_ENTRY".toList then (tableLine (n, cs)).map fun e => ctEntry e.1 e.2 else none
      | _ => none
  | _ => none

/-- The transfers of one assembler line (R53). -/
def assembleLine (line : List Char) : Option (List PortWord) :=
  match lexLine (line.length + 1) line with
  | some ls => (assembleLexemes ls).map fun is => is.map encode
  | none => none

end Sys2Proof.Machine
end

