-- ==== Sys2Proof/Machine/DecodeRun.lean ====
section
/-! DEFINITION. Machine/DecodeRun.lean: a decode from its START to its end, and what it produced (42_decode_fsm.md R77). -/

namespace Sys2Proof.Machine

/-- The FSM has the next turn, as its own or because the turns have run out (R111). -/
def fsmIsNext (s : State) : Bool :=
  match s.host.turns with
  | [] => true
  | t :: _ => t == .fsm

/-- The symbols the next step appends to `OUTQ`: the one of an EMIT step, and none in any other step (R68). -/
def appended (s : State) : List Byte :=
  match fsmIsNext s, fsmMove s.params s.block with
  | true, .emit d => [d]
  | _, _ => []

/-- What a decode produced (R77): the symbols IT appended to `OUTQ`, in order, with `STATE`, `ERR` and `COUNT` at its end.
Whether they have been popped, what stood in `OUTQ` before, and which tokens are left are no part of it. -/
structure DecodeEnd where
  symbols : List Byte
  state : FsmState
  err : ErrCode
  count : BitVec 32
  deriving DecidableEq, Repr

/-- A decode that ends here, with nothing more appended. -/
def DecodeEnd.here (b : Block) : DecodeEnd := { symbols := [], state := b.state, err := b.err, count := b.count }

/-- The same end with symbols appended before. -/
def DecodeEnd.after (ds : List Byte) (e : DecodeEnd) : DecodeEnd := { e with symbols := ds ++ e.symbols }

/-- What the decode in progress produces from here to its end, which comes when `STATE` leaves `RUN` (R77);
none when it has not ended within `k` steps, or waits on the host for ever (R68, R71). -/
def decodeEnd : Nat → State → Option DecodeEnd
  | 0, s => if s.block.state = .run then none else some (.here s.block)
  | k + 1, s =>
    if s.block.state = .run then
      match step s with
      | .next s' => (decodeEnd k s').map (DecodeEnd.after (appended s))
      | .fault _ => none
      | .refused _ => none
    else some (.here s.block)

/-- What the decode that START begins here produces (R64, R77); none also when START begins no decode. -/
def startedDecode (k : Nat) (s : State) : Option DecodeEnd :=
  match exec .start s with
  | .next s' => if s'.block.state = .run then decodeEnd k s' else none
  | .fault _ => none
  | .refused _ => none

end Sys2Proof.Machine
end

