-- ==== Sys2Proof/Machine/Lts.lean ====
section
/-! DEFINITION. Machine/Lts.lean: the labelled transition system of 00_scope.md R11, as a relation on the block alone.
Which enabled transition comes next is left open here, as R11 leaves it; `step` takes the one its turns choose. -/

namespace Sys2Proof.Machine

/-- The transitions of R11: the host's four and the FSM's one. -/
inductive Label where
  /-- The host issues a command word (R56). -/
  | command (w : CommandWord)
  /-- The block accepts a token (R80, R81). -/
  | accept (t : Token)
  /-- The host pops and receives a symbol (R82). -/
  | pop (d : Byte)
  /-- The host asserts reset (R100). -/
  | reset
  /-- The FSM steps (R66). -/
  | fsm
  deriving DecidableEq, Repr

/-- The FSM's step as R67 to R70 state it, each with its own enabling condition. -/
def fsmTransition (p : Params) (b b' : Block) : Prop :=
  b.state = .run ∧
  ((b.count = b.total ∧ b' = { b with state := .done }) ∨
   (b.count ≠ b.total ∧ (∃ s, matchSym b.ct b.cur = some s ∧ b.outq.length < p.outDepth ∧
      b' = { b with outq := b.outq ++ [s], count := b.count + 1, cur := [] })) ∨
   (b.count ≠ b.total ∧ matchSym b.ct b.cur = none ∧ 0 < b.bitcnt.toNat ∧
      isNode b.ct (b.cur ++ [b.bitbuf[7]]) = true ∧
      b' = { b with bitbuf := b.bitbuf <<< 1, bitcnt := b.bitcnt - 1, cur := b.cur ++ [b.bitbuf[7]] }) ∨
   (b.count ≠ b.total ∧ matchSym b.ct b.cur = none ∧ 0 < b.bitcnt.toNat ∧
      isNode b.ct (b.cur ++ [b.bitbuf[7]]) = false ∧
      b' = { b with bitbuf := b.bitbuf <<< 1, bitcnt := b.bitcnt - 1, state := .error, err := .struct }) ∨
   (b.count ≠ b.total ∧ matchSym b.ct b.cur = none ∧ b.bitcnt = 0 ∧ b.eosf = true ∧
      b' = { b with state := .error, err := .truncated }))

/-- `b` goes to `b'` by the labelled transition. -/
def Transition (p : Params) (b : Block) (l : Label) (b' : Block) : Prop :=
  match l with
  | .command w => ∀ h : HostSide, exec (decodeCommand w) ⟨p, b, h⟩ = .next ⟨p, b', h⟩
  | .accept t => inReady b = true ∧ (t[8] = false ∧ b' = { b with bitbuf := t.extractLsb' 0 8, bitcnt := 8 } ∨
      t[8] = true ∧ b' = { b with eosf := true })
  | .pop d => b.outq = d :: b'.outq ∧ b' = { b with outq := b'.outq }
  | .reset => b' = Block.reset
  | .fsm => fsmTransition p b b'

/-- A schedule under which the next step is the labelled transition. -/
def State.scheduled (l : Label) (s : State) : State :=
  match l with
  | .command w => s.aboutTo (.command w)
  | .accept t => s.aboutTo (.token t)
  | .pop _ => s.withTurns (.pop :: s.host.turns)
  | .reset => s.withTurns (.reset :: s.host.turns)
  | .fsm => s.withTurns (.fsm :: s.host.turns)

end Sys2Proof.Machine
end

