-- ==== Sys2Proof/Machine/Serve.lean ====
section
/-! DEFINITION. Machine/Serve.lean: the host that meets its duties during a decode (70_reset_and_hazards.md R102 step 5, R105, R106):
it pops whenever `out_valid = 1` and offers its next token whenever `in_ready = 1`; otherwise the FSM has the turn (DESIGN CHOICE, notes/assumptions/9, safe). -/

namespace Sys2Proof.Machine

/-- Whose turn it is under such a host. -/
def servedTurn (b : Block) : Turn :=
  if outValid b then .pop else if inReady b then .token else .fsm

/-- One step under such a host. -/
def servedStep (s : State) : Result := step (s.withTurns [servedTurn s.block])

/-- A number of steps under such a host, stopping at the first fault or refusal. -/
def servedRun : Nat → State → Result
  | 0, s => .next s
  | k + 1, s =>
    match servedStep s with
    | .next s' => servedRun k s'
    | .fault r => .fault r
    | .refused r => .refused r

/-- The unread bits of the current byte, in the order the FSM takes them (R22, R31). -/
def bufferedBits (b : Block) : BitString := (byteBits b.bitbuf).take b.bitcnt.toNat

/-- The bits of the payload bytes a host still holds, up to its first end-of-stream token (R31, R50). -/
def tokenBits : List Token → BitString
  | [] => []
  | t :: ts => if t[8] then [] else byteBits (t.extractLsb' 0 8) ++ tokenBits ts

end Sys2Proof.Machine
end

