-- ==== Sys2Proof/Machine/Source.lean ====
section
/-! DEFINITION. Machine/Source.lean: the source's own decoder as the spec quotes it: the tree rebuilt from the code table
(20_memory.md R37) and the decode loop (the opening of 42_decode_fsm.md, R68 to R70, R73). The FSM is compared with it. -/

namespace Sys2Proof.Machine

/-- The source's tree: a node has an optional symbol and two children, each of which may be absent. -/
inductive Tree where
  | absent
  | node (sym : Option Byte) (left right : Tree)
  deriving DecidableEq, Repr

/-- The child on an edge: left on bit 0, right on bit 1 (R32). -/
def Tree.child : Tree → Bool → Tree
  | .absent, _ => .absent
  | .node _ l r, b => if b then r else l

/-- The node a path leads to from this one. -/
def Tree.descend : Tree → BitString → Tree
  | t, [] => t
  | t, b :: p => Tree.descend (t.child b) p

/-- The symbol field of a node. -/
def Tree.symbol : Tree → Option Byte
  | .absent => none
  | .node s _ _ => s

/-- A node is a leaf iff both children are absent (00_scope.md, glossary). -/
def Tree.isLeaf : Tree → Bool
  | .node _ .absent .absent => true
  | _ => false

/-- One entry of the reconstruction (R37): walk the code from here, creating placeholder nodes for any path segment not yet present,
and set the symbol field on the final node reached. -/
def Tree.insert (s : Byte) : BitString → Tree → Tree
  | [], .absent => .node (some s) .absent .absent
  | [], .node _ l r => .node (some s) l r
  | b :: p, .absent => if b then .node none .absent (Tree.insert s p .absent) else .node none (Tree.insert s p .absent) .absent
  | b :: p, .node x l r => if b then .node x l (Tree.insert s p r) else .node x (Tree.insert s p l) r

/-- The empty root the reconstruction starts from (R58). -/
def Tree.emptyRoot : Tree := .node none .absent .absent

/-- The tree of a list of entries, processed in the order of the list (R37). -/
def buildTree (codes : List (Byte × BitString)) : Tree :=
  codes.foldl (fun t e => Tree.insert e.1 e.2 t) Tree.emptyRoot

/-- How the source's loop ends. -/
inductive SourceEnd where
  /-- The decoded-count equals the target count (R67). -/
  | complete
  /-- End-of-stream before the target count (R70). -/
  | truncated
  /-- A descent lands on an absent child (R69). -/
  | corrupt
  deriving DecidableEq, Repr

/-- What a run of the source's loop leaves: the symbols it emitted, how it ended and the bits it has not read. -/
structure SourceRun where
  emitted : List Byte
  ending : SourceEnd
  unread : BitString
  deriving DecidableEq, Repr

/-- One symbol emitted before the rest of a run. -/
def SourceRun.after (d : Byte) (r : SourceRun) : SourceRun := { r with emitted := d :: r.emitted }

/-- The source's decode loop from a cursor, with the number of symbols still to decode: read one bit, descend, and when a leaf is
reached emit its symbol, count it and reset the cursor to the root, until the target count is reached (42_decode_fsm.md, opening).
A leaf without a symbol emits nothing and the loop goes on from it (DEDUCED, notes/assumptions/14, safe). -/
def sourceLoop (root : Tree) : Tree → BitString → Nat → SourceRun
  | _, bits, 0 => { emitted := [], ending := .complete, unread := bits }
  | _, [], _ + 1 => { emitted := [], ending := .truncated, unread := [] }
  | cur, b :: bits, n + 1 =>
    match cur.child b with
    | .absent => { emitted := [], ending := .corrupt, unread := bits }
    | .node sym l r =>
      if (Tree.node sym l r).isLeaf then
        match sym with
        | some d => (sourceLoop root root bits n).after d
        | none => sourceLoop root (.node sym l r) bits (n + 1)
      else sourceLoop root (.node sym l r) bits (n + 1)

/-- The source's decoder on a table, from the root (R73). -/
def sourceDecode (t : Table) (bits : BitString) (n : Nat) : SourceRun :=
  sourceLoop (buildTree (validCodes t)) (buildTree (validCodes t)) bits n

end Sys2Proof.Machine
end

