-- ==== Sys2Proof/Safety.lean ====
section
/-! DEFINITION. Safety.lean: what a good state is, in the terms the statements use: one predicate for each invariant of the spec. -/

namespace Sys2Proof.Machine

/-- An entry as R18 requires it: `|CODE| = LEN <= MAXLEN` when valid, zero and empty when not. -/
def Entry.ok (p : Params) (e : Entry) : Prop :=
  (e.v = true → e.code.length = e.len.toNat ∧ e.len.toNat ≤ p.maxLen) ∧ (e.v = false → e = .invalid)

/-- The storage of the block is as wide as R12 says: the table (R18), the staging register (R20), `BITCNT` (R22),
`OUTQ` (R24), and the table in its canonical form. -/
structure StorageOk (p : Params) (b : Block) : Prop where
  table : Table.wf b.ct
  entries : ∀ s, (Table.read b.ct s).ok p
  stagedLength : b.stg.length = b.stgLen.toNat
  stagedBound : b.stgLen.toNat ≤ p.maxLen
  bitCount : b.bitcnt.toNat ≤ 8
  queue : b.outq.length ≤ p.outDepth

/-- `ERR ≠ 0` exactly when `STATE = ERROR` (R15). -/
def ErrMatchesState (b : Block) : Prop := b.err ≠ .noError ↔ b.state = .error

/-- During a decode the table is conflict-free (R64, R40), the cursor is a node (R74), and `COUNT <= TOTAL` (R75). -/
structure DecodeOk (b : Block) : Prop where
  table : b.state = .run → conflictFree b.ct = true
  cursor : b.state = .run → isNode b.ct b.cur = true
  counts : b.state = .run → b.count.toNat ≤ b.total.toNat

/-- The reader holds no bit once it has seen the end of the stream: a token is accepted only when `BITCNT = 0` and `EOSF = 0` (R79). -/
def ReaderOk (b : Block) : Prop := b.eosf = true → b.bitcnt = 0

/-- A good state: legal parameters and every invariant of the spec. -/
structure State.Inv (s : State) : Prop where
  params : s.params.wf
  storage : StorageOk s.params s.block
  error : ErrMatchesState s.block
  decode : DecodeOk s.block
  reader : ReaderOk s.block

/-- The states in which every legal command performs (R56). -/
def Configurable (b : Block) : Prop := b.state = .idle ∨ b.state = .done

/-- What R56 gives a legal command that only performs in `IDLE` and `DONE`: BUSY in `RUN`, with nothing else changed, and no effect in `ERROR`. -/
def GatedOut (i : Instr) : Prop :=
  ∀ s : State,
    (s.block.state = .run → exec i s = .next { s with block := { s.block with state := .error, err := .busy } }) ∧
    (s.block.state = .error → exec i s = .next s)

/-- The illegal variants of an opcode: every word with that opcode and a reserved bit set, as `reservedSet` says, raises ILLEGAL_CMD
outside `ERROR`, with nothing else changed, and is ignored in `ERROR` (R48, R56). -/
def VariantsAreIllegal (op : BitVec 8) (reservedSet : CommandWord → Prop) : Prop :=
  ∀ (w : CommandWord) (s : State), w.extractLsb' 24 8 = op → reservedSet w →
    (s.block.state ≠ .error →
      exec (decodeCommand w) s = .next { s with block := { s.block with state := .error, err := .illegalCmd } }) ∧
    (s.block.state = .error → exec (decodeCommand w) s = .next s)

/-- The code of the last line that names a symbol (R61). -/
def lastLine (lines : List (Byte × BitString)) (d : Byte) : Option BitString :=
  (lines.reverse.find? fun e => e.1 == d).map fun e => e.2

/-- No symbol has the zero-length code: `ε` is not a valid code (R73, R76). -/
def NoEmptyCode (t : Table) : Prop := ∀ d, (Table.read t d).v = true → (Table.read t d).code ≠ []

/-- The next turn is the host's reset. -/
def resetIsNext (s : State) : Prop := s.host.turns.head? = some .reset

/-- The next turn is the host's, and it issues a word that decodes to `i`. -/
def commandIsNext (i : Instr) (s : State) : Prop :=
  s.host.turns.head? = some .command ∧ ∃ w ws, s.host.cmds = w :: ws ∧ decodeCommand w = i

/-- Every symbol the block has put out and reset has not lost, of this decode and of earlier ones: those the host has received,
then those still in `OUTQ` (R39, R109). What ONE decode produced is `DecodeEnd.symbols`. -/
def symbolsOut (s : State) : List Byte := s.host.received ++ s.block.outq

/-- The turns hold neither a command nor a reset: the host issues no command during the decode (R72). -/
def noCommand (ts : List Turn) : Bool := ts.all fun t => t != .command && t != .reset

end Sys2Proof.Machine
end

