-- ==== Sys2Proof/Certificates/Slice0/Obligations.lean ====
section
/-! DEFINITION. Certificates/Slice0/Obligations.lean: the statements for the provers, from the numbered rules of spec/. -/

open Sys2Proof Sys2Proof.Machine

/-! ### Encoding (30_encoding.md) -/

/-- Decoding the encoding of a well-formed instruction gives it back (R45, R49, R50, R52). -/
def Obligations.EncodeThenDecodeIsIdentity : Prop :=
  ∀ i : Instr, i.wellFormed = true → decode (encode i) = i

/-- Each word has one meaning: encoding what a word decodes to gives the word back, the ignored `DATA` of IN_EOS apart,
and whatever the decoder reads is well-formed (R50, R52). -/
def Obligations.DecodeThenEncodeGivesTheWordBack : Prop :=
  (∀ w : CommandWord, encode (decodeCommand w) = .command w) ∧
  (∀ t : Token, t[8] = false → encode (decodeToken t) = .token t) ∧
  (∀ t : Token, t[8] = true → encode (decodeToken t) = .token eosToken) ∧
  (∀ p : PortWord, (decode p).wellFormed = true)

/-- R52, held against the match and mask rows of R49: the word of a row decodes to the row's command with its fields,
and a word of no row decodes to `Illegal`. -/
def Obligations.DecodingFollowsTheOpcodeMap : Prop :=
  ∀ w : CommandWord,
    (w &&& 0xFFFFFFFF = 0x00000000 → decodeCommand w = .nop) ∧
    (w &&& 0xFFFFFFFF = 0x01000000 → decodeCommand w = .ctClear) ∧
    (∀ k < 16, w &&& (0xFFFF0000#32 ||| BitVec.ofNat 32 (2 ^ (15 - k) - 1)) = 0x02000000#32 ||| (BitVec.ofNat 32 k <<< 16) →
      decodeCommand w = .ctPush ((List.range (k + 1)).map fun i => w.getLsbD (15 - i))) ∧
    (w &&& 0xFFFFFF00 = 0x03000000 → decodeCommand w = .ctCommit (w.extractLsb' 0 8)) ∧
    (w &&& 0xFFFF0000 = 0x04000000 → decodeCommand w = .setTotalLo (w.extractLsb' 0 16)) ∧
    (w &&& 0xFFFF0000 = 0x05000000 → decodeCommand w = .setTotalHi (w.extractLsb' 0 16)) ∧
    (w &&& 0xFFFFFFFF = 0x06000000 → decodeCommand w = .start) ∧
    (w &&& 0xFFFFFFFF = 0x07000000 → decodeCommand w = .abort) ∧
    (isCommandWord w = false → decodeCommand w = .illegal w)

/-- R48, R49: a nonzero reserved bit under an assigned opcode, and every unassigned opcode, is `Illegal`,
and all illegal words have one and the same effect. -/
def Obligations.ReservedBitsAndUnassignedOpcodesAreIllegal : Prop :=
  ∀ w : CommandWord,
    ((w.extractLsb' 24 8 = 0 ∨ w.extractLsb' 24 8 = 1 ∨ w.extractLsb' 24 8 = 6 ∨ w.extractLsb' 24 8 = 7) →
      w.extractLsb' 0 24 ≠ 0 → decodeCommand w = .illegal w) ∧
    (w.extractLsb' 24 8 = 2 →
      w.extractLsb' 20 4 ≠ 0 ∨ w.toNat % 2 ^ (15 - (w.extractLsb' 16 4).toNat) ≠ 0 → decodeCommand w = .illegal w) ∧
    (w.extractLsb' 24 8 = 3 → w.extractLsb' 8 16 ≠ 0 → decodeCommand w = .illegal w) ∧
    (w.extractLsb' 24 8 = 4 ∨ w.extractLsb' 24 8 = 5 → w.extractLsb' 16 8 ≠ 0 → decodeCommand w = .illegal w) ∧
    (8 ≤ (w.extractLsb' 24 8).toNat → decodeCommand w = .illegal w) ∧
    (∀ w' s, exec (.illegal w) s = exec (.illegal w') s)

/-- R50: bit 8 of a token tells IN_EOS, whose `DATA` is ignored, from IN_BYTE. -/
def Obligations.TokenBitEightIsTheSentinel : Prop :=
  ∀ t : Token,
    (t[8] = false → decodeToken t = .inByte (t.extractLsb' 0 8)) ∧
    (t[8] = true → decodeToken t = .inEos)

/-- Words written out in the spec (95_test_vectors.md V-E1 to V-E17) decode as it says.
R50's tokens have 9 bits; that the two token patterns are taken at 16 bits, the table's whole bytes, is the model's choice
(notes/assumptions/8). -/
def Obligations.WordsOfTheSpecDecode : Prop :=
  decodeTableWord 32 0x00000000 = some .nop ∧
  decodeTableWord 32 0x00000001 = some (.illegal 0x00000001) ∧
  decodeTableWord 32 0x01000000 = some .ctClear ∧
  decodeTableWord 32 0x02018000 = some (.ctPush [true, false]) ∧
  decodeTableWord 32 0x020F0001 = some (.ctPush (List.replicate 15 false ++ [true])) ∧
  decodeTableWord 32 0x02004000 = some (.illegal 0x02004000) ∧
  decodeTableWord 32 0x0300005A = some (.ctCommit 90) ∧
  decodeTableWord 32 0x04000006 = some (.setTotalLo 6) ∧
  decodeTableWord 32 0x0500FFFF = some (.setTotalHi 0xFFFF) ∧
  decodeTableWord 32 0x06000000 = some .start ∧
  decodeTableWord 32 0x07000000 = some .abort ∧
  decodeTableWord 32 0x08000000 = some (.illegal 0x08000000) ∧
  decodeTableWord 16 0x0FF = some (.inByte 0xFF) ∧
  decodeTableWord 16 0x1FF = some .inEos

/-! ### What a step runs (00_scope.md R11; the interleaving is the model's, notes/assumptions/1) -/

/-- A command turn runs the host's next word: the step is `exec` of the decoded word, with the turn and the word used up (R39, R56, R83). -/
def Obligations.CommandTurnRunsTheNextWord : Prop :=
  ∀ (s : State) (w : CommandWord) (ws : List CommandWord) (ts : List Turn),
    s.host.turns = .command :: ts → s.host.cmds = w :: ws →
    step s = exec (decodeCommand w) { s with host := { s.host with turns := ts, cmds := ws } }

/-- A token turn offers the host's next token: accepted and consumed when `in_ready = 1`;
otherwise it stays with the host, and nothing in the block changes (R36, R79). -/
def Obligations.TokenTurnOffersTheNextToken : Prop :=
  ∀ (s : State) (t : Token) (rest : List Token) (ts : List Turn),
    s.host.turns = .token :: ts → s.host.tokens = t :: rest →
    (inReady s.block = true →
      step s = exec (decodeToken t) { s with host := { s.host with turns := ts, tokens := rest } }) ∧
    (inReady s.block = false → step s = .next { s with host := { s.host with turns := ts } })

/-- The instruction placed by `withFetchWord` is the one the next step runs, at the state it was placed in.
The placing is the model's choice (notes/assumptions/4). -/
def Obligations.PlacedInstructionIsRunNext : Prop :=
  ∀ (s : State) (w : Nat),
    (w < 2 ^ 32 → step (s.withFetchWord 32 w) = exec (decodeCommand (BitVec.ofNat 32 w)) s) ∧
    (w < 2 ^ 9 → inReady s.block = true → step (s.withFetchWord 16 w) = exec (decodeToken (BitVec.ofNat 9 w)) s)

/-- An FSM turn takes the FSM's enabled step, and passes when there is none (R66, R71); when the turns have run out the enabled step
is taken all the same (R111), and only then, with none enabled, the machine stops, stuck (I17). No step is refused. -/
def Obligations.FsmStepsOnItsTurnsAndWhenTurnsRunOut : Prop :=
  ∀ s : State,
    (∀ ts b, s.host.turns = .fsm :: ts → fsmStep s.params s.block = some b →
      step s = .next { s with block := b, host := { s.host with turns := ts } }) ∧
    (∀ ts, s.host.turns = .fsm :: ts → fsmStep s.params s.block = none →
      step s = .next { s with host := { s.host with turns := ts } }) ∧
    (∀ b, s.host.turns = [] → fsmStep s.params s.block = some b → step s = .next { s with block := b }) ∧
    (∀ f, step s = .fault f ↔ s.host.turns = [] ∧ fsmStep s.params s.block = none) ∧
    (∀ r, step s ≠ .refused r)

/-! ### Commands (40_table_commands.md, 41_control_commands.md) -/

/-- R57: NOP leaves every state as it is; its illegal variants raise ILLEGAL_CMD. -/
def Obligations.NopChangesNothing : Prop :=
  decodeCommand 0x00000000 = .nop ∧ (∀ s : State, exec .nop s = .next s) ∧
  VariantsAreIllegal 0x00 (fun w => w.extractLsb' 0 24 ≠ 0)

/-- R58: CT_CLEAR makes every entry invalid, empties the staging register and changes nothing else. -/
def Obligations.CtClearEmptiesTableAndStaging : Prop :=
  decodeCommand 0x01000000 = .ctClear ∧
  (∀ s : State, Configurable s.block →
    exec .ctClear s = .next { s with block := { s.block with ct := Table.cleared, stg := [], stgLen := 0 } }) ∧
  GatedOut .ctClear ∧ VariantsAreIllegal 0x01 (fun w => w.extractLsb' 0 24 ≠ 0) ∧
  (∀ d, Table.read Table.cleared d = .invalid) ∧
  (∀ p, matchSym Table.cleared p = none ∧ (isNode Table.cleared p = true ↔ p = []))

/-- R59: CT_PUSH appends its bits to the staged code, or raises CODE_TOO_LONG with the staging register unchanged;
the bits stay staged across every other instruction but CT_COMMIT and CT_CLEAR, and under legal parameters the staged length does not wrap. -/
def Obligations.CtPushStagesBitsOrRaisesCodeTooLong : Prop :=
  (∀ bits : BitString, 1 ≤ bits.length → bits.length ≤ 16 → decodeCommand (encodePush bits) = .ctPush bits) ∧
  (∀ (s : State) (bits : BitString), Configurable s.block →
    (s.block.stgLen.toNat + bits.length ≤ s.params.maxLen →
      exec (.ctPush bits) s = .next { s with block :=
        { s.block with stg := s.block.stg ++ bits, stgLen := s.block.stgLen + BitVec.ofNat 8 bits.length } }) ∧
    (s.params.maxLen < s.block.stgLen.toNat + bits.length →
      exec (.ctPush bits) s = .next { s with block := { s.block with state := .error, err := .codeTooLong } })) ∧
  (∀ bits, GatedOut (.ctPush bits)) ∧
  VariantsAreIllegal 0x02 (fun w =>
    w.extractLsb' 20 4 ≠ 0 ∨ w.toNat % 2 ^ (15 - (w.extractLsb' 16 4).toNat) ≠ 0) ∧
  (∀ (i : Instr) (s s' : State), exec i s = .next s' → (∀ bits, i ≠ .ctPush bits) → (∀ sym, i ≠ .ctCommit sym) → i ≠ .ctClear →
    s'.block.stg = s.block.stg ∧ s'.block.stgLen = s.block.stgLen) ∧
  (∀ (s : State) (bits : BitString), s.params.wf → s.block.stgLen.toNat + bits.length ≤ s.params.maxLen →
    (s.block.stgLen + BitVec.ofNat 8 bits.length).toNat = s.block.stgLen.toNat + bits.length)

/-- R60: CT_COMMIT writes the staged code into the symbol's entry, whatever it held, empties the staging register,
and leaves every other symbol's entry and every other element as it was. -/
def Obligations.CtCommitWritesOneEntry : Prop :=
  (∀ (s : State) (sym : Byte), Configurable s.block →
    exec (.ctCommit sym) s = .next { s with block :=
      { s.block with ct := Table.write s.block.ct sym (stagedEntry s.block), stg := [], stgLen := 0 } }) ∧
  (∀ sym : Byte, decodeCommand (0x03#8 ++ 0#16 ++ sym) = .ctCommit sym) ∧
  (∀ sym, GatedOut (.ctCommit sym)) ∧ VariantsAreIllegal 0x03 (fun w => w.extractLsb' 8 16 ≠ 0) ∧
  (∀ (b : Block) (sym d : Byte),
    Table.read (Table.write b.ct sym (stagedEntry b)) d =
      if d = sym then { v := true, len := b.stgLen, code := b.stg } else Table.read b.ct d)

/-- R18, R19: the table holds one entry per symbol and nothing else: two tables in canonical form with the same entries are equal.
The canonical form is the model's choice (notes/assumptions/6). -/
def Obligations.TablesWithTheSameEntriesAreEqual : Prop :=
  ∀ t u : Table, Table.wf t → Table.wf u → (∀ d, Table.read t d = Table.read u d) → t = u

/-- R62: SET_TOTAL_LO writes the low half of TOTAL and nothing else. -/
def Obligations.SetTotalLoWritesTheLowHalf : Prop :=
  (∀ (s : State) (imm : BitVec 16), Configurable s.block →
    exec (.setTotalLo imm) s = .next { s with block := { s.block with total := s.block.total.extractLsb' 16 16 ++ imm } }) ∧
  (∀ imm : BitVec 16, decodeCommand (0x04#8 ++ 0#8 ++ imm) = .setTotalLo imm) ∧
  (∀ imm, GatedOut (.setTotalLo imm)) ∧ VariantsAreIllegal 0x04 (fun w => w.extractLsb' 16 8 ≠ 0) ∧
  (∀ (total : BitVec 32) (imm : BitVec 16),
    (total.extractLsb' 16 16 ++ imm).extractLsb' 0 16 = imm ∧
    (total.extractLsb' 16 16 ++ imm).extractLsb' 16 16 = total.extractLsb' 16 16)

/-- R63: SET_TOTAL_HI writes the high half of TOTAL and nothing else. -/
def Obligations.SetTotalHiWritesTheHighHalf : Prop :=
  (∀ (s : State) (imm : BitVec 16), Configurable s.block →
    exec (.setTotalHi imm) s = .next { s with block := { s.block with total := imm ++ s.block.total.extractLsb' 0 16 } }) ∧
  (∀ imm : BitVec 16, decodeCommand (0x05#8 ++ 0#8 ++ imm) = .setTotalHi imm) ∧
  (∀ imm, GatedOut (.setTotalHi imm)) ∧ VariantsAreIllegal 0x05 (fun w => w.extractLsb' 16 8 ≠ 0) ∧
  (∀ (total : BitVec 32) (imm : BitVec 16),
    (imm ++ total.extractLsb' 0 16).extractLsb' 16 16 = imm ∧
    (imm ++ total.extractLsb' 0 16).extractLsb' 0 16 = total.extractLsb' 0 16)

/-- R64: START begins a decode on a conflict-free table, and raises TABLE_CONFLICT with nothing else changed on any other;
the empty table and the table of one zero-length code are conflict-free. -/
def Obligations.StartBeginsADecodeOrRaisesTableConflict : Prop :=
  decodeCommand 0x06000000 = .start ∧
  (∀ s : State, Configurable s.block →
    (conflictFree s.block.ct = true →
      exec .start s = .next { s with block :=
        { s.block with count := 0, cur := [], bitbuf := 0, bitcnt := 0, eosf := false, state := .run } }) ∧
    (conflictFree s.block.ct = false →
      exec .start s = .next { s with block := { s.block with state := .error, err := .tableConflict } })) ∧
  GatedOut .start ∧ VariantsAreIllegal 0x06 (fun w => w.extractLsb' 0 24 ≠ 0) ∧
  conflictFree Table.cleared = true ∧ (∀ d, conflictFree [(d, { v := true, len := 0, code := [] })] = true)

/-- R65: ABORT sets IDLE and clears ERR in every state, and changes nothing else; it is the only instruction that leaves `ERROR`. -/
def Obligations.AbortReturnsToIdleFromEveryState : Prop :=
  decodeCommand 0x07000000 = .abort ∧
  (∀ s : State, exec .abort s = .next { s with block := { s.block with state := .idle, err := .noError } }) ∧
  (∀ (i : Instr) (s s' : State), s.block.state = .error → exec i s = .next s' → s'.block.state ≠ .error → i = .abort) ∧
  VariantsAreIllegal 0x07 (fun w => w.extractLsb' 0 24 ≠ 0)

/-- R90: an illegal word raises ILLEGAL_CMD outside `ERROR`, with nothing else changed, and is ignored in `ERROR`. -/
def Obligations.IllegalWordRaisesIllegalCmd : Prop :=
  ∀ (s : State) (w : CommandWord),
    (s.block.state ≠ .error →
      exec (.illegal w) s = .next { s with block := { s.block with state := .error, err := .illegalCmd } }) ∧
    (s.block.state = .error → exec (.illegal w) s = .next s)

/-- R94: one command raises at most one error, tested in the order: `ERROR` ignores, ILLEGAL_CMD, BUSY, then the command's own.
The spec marks R94 as its own inference from R56. -/
def Obligations.CommandErrorsFollowTheFixedOrder : Prop :=
  (∀ (i : Instr) (s : State), s.block.state = .error → i ≠ .abort → exec i s = .next s) ∧
  ∀ (i : Instr) (s s' : State), exec i s = .next s' → s.block.state ≠ .error → s'.block.state = .error →
    (∀ w, i = .illegal w → s'.block.err = .illegalCmd) ∧
    (s.block.state = .run → (∀ w, i ≠ .illegal w) → s'.block.err = .busy) ∧
    (Configurable s.block → (∀ w, i ≠ .illegal w) →
      (∃ bits, i = .ctPush bits) ∧ s'.block.err = .codeTooLong ∨ i = .start ∧ s'.block.err = .tableConflict)

/-- R85: an error raised by a command or met by the FSM changes `STATE` and `ERR` alone,
but for the bit a BIT step has consumed; and in `ERROR` the FSM has no step. -/
def Obligations.ErrorsArePrecise : Prop :=
  (∀ (i : Instr) (s s' : State), exec i s = .next s' → s.block.state ≠ .error → s'.block.state = .error →
    s' = { s with block := { s.block with state := .error, err := s'.block.err } } ∧ s'.block.err ≠ .noError) ∧
  (∀ (p : Params) (b b' : Block), fsmStep p b = some b' → b'.state = .error →
    (b.bitcnt = 0 ∧ b' = { b with state := .error, err := .truncated }) ∨
    (b.bitcnt ≠ 0 ∧
      b' = { b with state := .error, err := .struct, bitbuf := b.bitbuf <<< 1, bitcnt := b.bitcnt - 1 })) ∧
  (∀ (p : Params) (b : Block), b.state = .error → fsmStep p b = none)

/-- R36: CT_CLEAR, NOP and the two SET_TOTAL commands, issued twice in `IDLE` or `DONE`, leave the state as one execution does,
and so does the commit of an identical entry.
The canonical form is the model's choice (notes/assumptions/6). -/
def Obligations.RepeatedCommandsAreIdempotent : Prop :=
  ∀ s : State, Configurable s.block → Table.wf s.block.ct →
    (∀ i, (i = .nop ∨ i = .ctClear ∨ (∃ imm, i = .setTotalLo imm) ∨ (∃ imm, i = .setTotalHi imm)) →
      issue [i, i] s = issue [i] s) ∧
    (∀ sym, Table.read s.block.ct sym = stagedEntry s.block →
      exec (.ctCommit sym) s = .next { s with block := { s.block with stg := [], stgLen := 0 } })

/-! ### Ports (43_stream_ports.md) -/

/-- R80: an accepted IN_BYTE fills the reader with eight bits, of which the FSM takes the first next; one that is not accepted changes nothing,
and none is accepted while bits are left. -/
def Obligations.InByteFillsTheReader : Prop :=
  (∀ b : Block, b.bitcnt ≠ 0 → inReady b = false) ∧
  ∀ (s : State) (d : Byte),
    (inReady s.block = true →
      exec (.inByte d) s = .next { s with block := { s.block with bitbuf := d, bitcnt := 8 } } ∧
      inReady { s.block with bitbuf := d, bitcnt := 8 } = false ∧
      fsmMove s.params { s.block with bitbuf := d, bitcnt := 8 } = .bit) ∧
    (inReady s.block = false → exec (.inByte d) s = .next s)

/-- R81: an accepted IN_EOS sets EOSF; `in_ready` is 0 while EOSF is set, and the FSM's next step raises TRUNCATED. -/
def Obligations.InEosMarksTheEndOfTheStream : Prop :=
  (∀ b : Block, b.eosf = true → inReady b = false) ∧
  ∀ s : State,
    (inReady s.block = true →
      exec .inEos s = .next { s with block := { s.block with eosf := true } } ∧
      inReady { s.block with eosf := true } = false ∧
      fsmStep s.params { s.block with eosf := true } =
        some { s.block with eosf := true, state := .error, err := .truncated }) ∧
    (inReady s.block = false → exec .inEos s = .next s)

/-- R79: `in_ready` is 1 exactly when the FSM is in WAIT, and then the FSM has no step (R71). -/
def Obligations.InReadyExactlyInWait : Prop :=
  ∀ (p : Params) (b : Block),
    (inReady b = true ↔
      b.state = .run ∧ b.count ≠ b.total ∧ matchSym b.ct b.cur = none ∧ b.bitcnt = 0 ∧ b.eosf = false) ∧
    (inReady b = true ↔ fsmMove p b = .wait) ∧ (inReady b = true → fsmStep p b = none)

/-- R82: in any `STATE` a pop gives the host the oldest symbol of `OUTQ` and removes it; with `OUTQ` empty there is no transition.
The interleaving as turns is the model's choice (notes/assumptions/1). -/
def Obligations.PopDeliversTheOldestSymbol : Prop :=
  ∀ (s : State) (ts : List Turn), s.host.turns = .pop :: ts →
    (∀ d q, s.block.outq = d :: q →
      outValid s.block = true ∧ outData s.block = d ∧
      step s = .next { s with block := { s.block with outq := q },
                              host := { s.host with turns := ts, received := s.host.received ++ [d] } }) ∧
    (s.block.outq = [] →
      outValid s.block = false ∧ outData s.block = 0 ∧ step s = .next { s with host := { s.host with turns := ts } })

/-- R13, R14: the numbers of the four states and of the errors; no error has a number from 7 to 15. -/
def Obligations.StatusNumbersOfStatesAndErrors : Prop :=
  (∀ n : BitVec 2, ∃ x : FsmState, x.code = n) ∧
  (FsmState.idle.code = 0 ∧ FsmState.run.code = 1 ∧ FsmState.done.code = 2 ∧ FsmState.error.code = 3) ∧
  (ErrCode.noError.code = 0 ∧ ErrCode.truncated.code = 1 ∧ ErrCode.struct.code = 2 ∧ ErrCode.tableConflict.code = 3 ∧
    ErrCode.codeTooLong.code = 4 ∧ ErrCode.illegalCmd.code = 5 ∧ ErrCode.busy.code = 6) ∧
  (∀ e : ErrCode, e.code.toNat < 7)

/-! ### The FSM (42_decode_fsm.md) -/

/-- R67: the DONE step. -/
def Obligations.DoneStepStopsAtTheTarget : Prop :=
  ∀ (p : Params) (b : Block), b.state = .run → b.count = b.total → fsmStep p b = some { b with state := .done }

/-- R68: the EMIT step, and its hold while the queue is full; the count does not wrap. -/
def Obligations.EmitStepAppendsTheMatchedSymbol : Prop :=
  ∀ (p : Params) (b : Block) (d : Byte), b.state = .run → b.count ≠ b.total → matchSym b.ct b.cur = some d →
    (b.outq.length < p.outDepth →
      fsmStep p b = some { b with outq := b.outq ++ [d], count := b.count + 1, cur := [] }) ∧
    (p.outDepth ≤ b.outq.length → fsmStep p b = none) ∧
    (b.count.toNat ≤ b.total.toNat → (b.count + 1).toNat = b.count.toNat + 1 ∧ (b.count + 1).toNat ≤ b.total.toNat)

/-- R69: the BIT step consumes the most significant unread bit, and descends or raises STRUCT. -/
def Obligations.BitStepDescendsOrRaisesStruct : Prop :=
  ∀ (p : Params) (b : Block), b.state = .run → b.count ≠ b.total → matchSym b.ct b.cur = none → 0 < b.bitcnt.toNat →
    (isNode b.ct (b.cur ++ [b.bitbuf[7]]) = true →
      fsmStep p b = some { b with bitbuf := b.bitbuf <<< 1, bitcnt := b.bitcnt - 1, cur := b.cur ++ [b.bitbuf[7]] }) ∧
    (isNode b.ct (b.cur ++ [b.bitbuf[7]]) = false →
      fsmStep p b = some { b with bitbuf := b.bitbuf <<< 1, bitcnt := b.bitcnt - 1, state := .error, err := .struct })

/-- R70: the TRUNCATED step. -/
def Obligations.TruncatedStepRaisesTruncated : Prop :=
  ∀ (p : Params) (b : Block), b.state = .run → b.count ≠ b.total → matchSym b.ct b.cur = none → b.bitcnt = 0 →
    b.eosf = true → fsmStep p b = some { b with state := .error, err := .truncated }

/-- R66: outside `RUN` the FSM has no step and no token is accepted. -/
def Obligations.FsmStepsOnlyInRun : Prop :=
  ∀ (p : Params) (b : Block), b.state ≠ .run → fsmStep p b = none ∧ inReady b = false

/-- The FSM's step function and the relation made of the five step rules, each with its own enabling condition, are the same (R66 to R70);
so at most one step is enabled and its result is a function of the state (R72). -/
def Obligations.FsmStepIsTheRelationOfItsRules : Prop :=
  ∀ (p : Params) (b b' : Block), fsmStep p b = some b' ↔ fsmTransition p b b'

/-! ### The tree and the table check (20_memory.md R37, R38) -/

/-- R37: the tree that the source's reconstruction builds has exactly the nodes `isNode` says,
and on a conflict-free table its symbols are those of `matchSym`. -/
def Obligations.RebuiltTreeHasTheNodesOfTheTable : Prop :=
  ∀ (t : Table) (p : BitString),
    ((buildTree (validCodes t)).descend p ≠ .absent ↔ isNode t p = true) ∧
    (conflictFree t = true → ((buildTree (validCodes t)).descend p).symbol = matchSym t p)

/-- R37: on a conflict-free table a node that carries a symbol is a leaf. -/
def Obligations.MatchedNodesAreLeaves : Prop :=
  ∀ (t : Table) (p : BitString), conflictFree t = true → matchSym t p ≠ none →
    hasChild t p = false ∧ ((buildTree (validCodes t)).descend p).isLeaf = true

/-- The tree does not depend on the order in which entries with distinct codes are processed (R37, R61). -/
def Obligations.TreeDoesNotDependOnEntryOrder : Prop :=
  ∀ l m : List (Byte × BitString), l.Perm m → (l.map fun e => e.2).Nodup → buildTree l = buildTree m

/-- R38: the check START makes is the prefix-code property over distinct valid entries, equal codes included;
a zero-length code passes it only as the only valid entry.
The canonical form is the model's choice (notes/assumptions/6). -/
def Obligations.ConflictFreeIsThePrefixCodeProperty : Prop :=
  ∀ t : Table, Table.wf t →
    (conflictFree t = true ↔
      ∀ a b : Byte, a ≠ b → (Table.read t a).v = true → (Table.read t b).v = true →
        ¬ (Table.read t a).code <+: (Table.read t b).code) ∧
    (conflictFree t = true → ∀ a b : Byte, (Table.read t a).v = true → (Table.read t a).code = [] →
      (Table.read t b).v = true → b = a)

/-! ### What is written where: frames -/

/-- The "written by" column of R12 for the commands and the tokens: each element changes only by the rows named there,
`OUTQ` by none of them, and the host's side and the parameters never change in `exec`. -/
def Obligations.EachElementChangesOnlyByItsWriters : Prop :=
  ∀ (i : Instr) (s s' : State), exec i s = .next s' →
    s'.params = s.params ∧ s'.host = s.host ∧ s'.block.outq = s.block.outq ∧
    ((s'.block.state ≠ s.block.state ∨ s'.block.err ≠ s.block.err) →
      i = .start ∨ i = .abort ∨ s'.block.state = .error ∧ (∀ d, i ≠ .inByte d) ∧ i ≠ .inEos) ∧
    (s'.block.total ≠ s.block.total → (∃ imm, i = .setTotalLo imm) ∨ ∃ imm, i = .setTotalHi imm) ∧
    (s'.block.count ≠ s.block.count → i = .start) ∧
    (s'.block.ct ≠ s.block.ct → i = .ctClear ∨ ∃ sym, i = .ctCommit sym) ∧
    ((s'.block.stg ≠ s.block.stg ∨ s'.block.stgLen ≠ s.block.stgLen) →
      i = .ctClear ∨ (∃ bits, i = .ctPush bits) ∨ ∃ sym, i = .ctCommit sym) ∧
    (s'.block.cur ≠ s.block.cur → i = .start) ∧
    ((s'.block.bitbuf ≠ s.block.bitbuf ∨ s'.block.bitcnt ≠ s.block.bitcnt) → i = .start ∨ ∃ d, i = .inByte d) ∧
    (s'.block.eosf ≠ s.block.eosf → i = .start ∨ i = .inEos)

/-- The "written by" column of R12 for the FSM: it never writes `TOTAL`, `CT`, `STG`, `STG_LEN` or `EOSF`,
and `OUTQ` and `COUNT` change only together, by one symbol appended at the tail. -/
def Obligations.FsmStepsLeaveTableStagingAndTargetAlone : Prop :=
  ∀ (p : Params) (b b' : Block), fsmStep p b = some b' →
    b'.total = b.total ∧ b'.ct = b.ct ∧ b'.stg = b.stg ∧ b'.stgLen = b.stgLen ∧ b'.eosf = b.eosf ∧
    ((b'.outq = b.outq ∧ b'.count = b.count) ∨
      (∃ d, matchSym b.ct b.cur = some d ∧ b'.outq = b.outq ++ [d] ∧ b'.count = b.count + 1 ∧ b'.cur = []
        ∧ b'.bitbuf = b.bitbuf ∧ b'.bitcnt = b.bitcnt))

/-- R40, R104: in `RUN` no step but reset changes the table, the staging register or `TOTAL`.
The interleaving as turns is the model's choice (notes/assumptions/1). -/
def Obligations.TableIsFixedDuringADecode : Prop :=
  ∀ s s' : State, step s = .next s' → s.block.state = .run → ¬ resetIsNext s →
    s'.block.ct = s.block.ct ∧ s'.block.total = s.block.total ∧ s'.block.stg = s.block.stg ∧
    s'.block.stgLen = s.block.stgLen

/-- R110: only CT_CLEAR, CT_COMMIT (for its one symbol) and reset change the table, and only in `IDLE` or `DONE` but for reset.
The interleaving as turns is the model's choice (notes/assumptions/1). -/
def Obligations.OnlyClearCommitAndResetChangeTheTable : Prop :=
  ∀ s s' : State, step s = .next s' → ¬ resetIsNext s →
    (∀ d, Table.read s'.block.ct d ≠ Table.read s.block.ct d →
      Configurable s.block ∧ (commandIsNext .ctClear s ∨ commandIsNext (.ctCommit d) s))

/-- R93: in `ERROR` nothing but ABORT and reset changes `STATE` or `ERR`, the FSM has no step and no token is accepted;
only pops still change the block, and only `OUTQ`.
The interleaving as turns is the model's choice (notes/assumptions/1). -/
def Obligations.ErrorIsStickyUntilAbortOrReset : Prop :=
  ∀ s s' : State, s.block.state = .error → step s = .next s' → ¬ resetIsNext s → ¬ commandIsNext .abort s →
    s'.block = { s.block with outq := s'.block.outq } ∧ s'.host.tokens = s.host.tokens ∧
    (s'.block.outq = s.block.outq ∨ ∃ d, s.block.outq = d :: s'.block.outq ∧ s.host.turns.head? = some .pop)

/-! ### Reset (70_reset_and_hazards.md) -/

/-- R100: reset, asserted in any state, sets every element of the block to its reset value; what the host has not delivered stays with it.
The interleaving as turns is the model's choice (notes/assumptions/1). -/
def Obligations.ResetSetsEveryElement : Prop :=
  ∀ (s : State) (ts : List Turn), s.host.turns = .reset :: ts →
    step s = .next { s with
      block := { state := .idle, err := .noError, total := 0, count := 0, ct := [], stgLen := 0, stg := [], cur := [],
                 bitbuf := 0, bitcnt := 0, eosf := false, outq := [] },
      host := { s.host with turns := ts } } ∧
    (∀ d, Table.read State.reset.block.ct d = .invalid)

/-! ### Invariants -/

/-- Every step keeps the model's invariant, from any state that has it: what the spec says of the block's elements
(R15, R18, R20, R22, R24, R38, R74, R75, R79), and the canonical form of the table, which is the model's choice (notes/assumptions/6). -/
def Obligations.EveryStepKeepsTheInvariant : Prop :=
  ∀ s s' : State, s.Inv → step s = .next s' → s'.Inv

/-- The model's invariant holds of State.reset (R29). That its parameters are legal rests on the reference values the model gives them there
(notes/assumptions/3), and the table's canonical form is the model's choice (notes/assumptions/6). -/
def Obligations.ResetMeetsTheInvariant : Prop := State.reset.Inv

/-- R15: `ERR ≠ 0` exactly when `STATE = ERROR`, after reset and after every step from a state where it holds.
The interleaving as turns is the model's choice (notes/assumptions/1). -/
def Obligations.EveryStepKeepsErrMatchingState : Prop :=
  ErrMatchesState State.reset.block ∧
  ∀ s s' : State, ErrMatchesState s.block → step s = .next s' → ErrMatchesState s'.block

/-- R74: during a decode the cursor is the root or a prefix of a valid code, so it is no longer than MAXLEN;
and every step leaves it so.
The premise holds the table's canonical form, which is the model's choice (notes/assumptions/6). -/
def Obligations.CursorIsAPrefixOfAValidCode : Prop :=
  ∀ s : State, s.Inv → s.block.state = .run →
    (s.block.cur = [] ∨ ∃ e ∈ validCodes s.block.ct, s.block.cur <+: e.2) ∧
    s.block.cur.length ≤ s.params.maxLen ∧
    (∀ s', step s = .next s' → s'.block.state = .run → isNode s'.block.ct s'.block.cur = true)

/-- R75: in a decode an EMIT adds 1 to COUNT without wrapping and never passes TOTAL, and a decode that ends in `DONE` has COUNT = TOTAL.
The premise holds the table's canonical form, which is the model's choice (notes/assumptions/6). -/
def Obligations.CountNeverPassesTheTarget : Prop :=
  ∀ (s : State) (b : Block), s.Inv → fsmStep s.params s.block = some b →
    b.count.toNat ≤ b.total.toNat ∧
    b.count.toNat + s.block.outq.length = s.block.count.toNat + b.outq.length ∧
    (b.state = .done → b.count = b.total)

/-! ### The machine as a whole -/

/-- R11: every step is one transition of the labelled transition system or leaves the block as it is,
and every transition of the system is the next step under some schedule.
The interleaving as turns is the model's choice (notes/assumptions/1). -/
def Obligations.StepsAreTheTransitionsOfTheSystem : Prop :=
  (∀ s s' : State, step s = .next s' →
    s'.params = s.params ∧ ((∃ l, Transition s.params s.block l s'.block) ∨ s'.block = s.block)) ∧
  (∀ (s : State) (l : Label) (b : Block), Transition s.params s.block l b →
    ∃ s', step (s.scheduled l) = .next s' ∧ s'.block = b ∧ s'.params = s.params ∧
      s'.host.received = s.host.received ++ (match l with | .pop d => [d] | _ => []))

/-- R72, R77: with no command and no reset during the decode, every interleaving that ends it has one and the same result: the symbols the decode
itself appended, with `STATE`, `ERR` and `COUNT` at its end. They follow whatever the block had put out before, and the runs end in the same block,
`OUTQ` apart, with the same tokens left.
The interleaving as turns is the model's choice (notes/assumptions/1). -/
def Obligations.DecodeDoesNotDependOnTheInterleaving : Prop :=
  ∀ (s s₁ s₂ : State) (ts₁ ts₂ : List Turn) (k₁ k₂ : Nat),
    s.block.state = .run → noCommand ts₁ = true → noCommand ts₂ = true →
    core.run k₁ (s.withTurns ts₁) = .next s₁ → core.run k₂ (s.withTurns ts₂) = .next s₂ →
    s₁.block.state ≠ .run → s₂.block.state ≠ .run →
    (∃ e : DecodeEnd, decodeEnd k₁ (s.withTurns ts₁) = some e ∧ decodeEnd k₂ (s.withTurns ts₂) = some e ∧
      e.state = s₁.block.state ∧ e.err = s₁.block.err ∧ e.count = s₁.block.count ∧
      symbolsOut s₁ = symbolsOut s ++ e.symbols ∧ symbolsOut s₂ = symbolsOut s ++ e.symbols) ∧
    s₁.host.tokens = s₂.host.tokens ∧
    { s₁.block with outq := [] } = { s₂.block with outq := [] }

/-- R73: on a conflict-free table without a zero-length code, a served decode of any bytes emits what the source's loop emits on the
rebuilt tree, stops at the same bit, and ends as the source does: complete in `DONE`, or with the source's error.
The serving host is the model's choice (notes/assumptions/9). -/
def Obligations.DecoderAgreesWithTheSourceLoop : Prop :=
  ∀ (s : State) (bytes : List Byte) (r : SourceRun),
    s.params.wf → Table.wf s.block.ct → conflictFree s.block.ct = true → NoEmptyCode s.block.ct →
    Configurable s.block → s.block.outq = [] → s.host.tokens = bytes.map byteToken ++ [eosToken] →
    r = sourceDecode s.block.ct (bytes.flatMap byteBits) s.block.total.toNat →
    ∃ (k : Nat) (s₀ s₁ : State), exec .start s = .next s₀ ∧ servedRun k s₀ = .next s₁ ∧
      s₁.host.received = s.host.received ++ r.emitted ∧ s₁.block.outq = [] ∧
      s₁.block.count.toNat = r.emitted.length ∧
      bufferedBits s₁.block ++ tokenBits s₁.host.tokens = r.unread ∧
      (r.ending = .complete → s₁.block.state = .done) ∧
      (r.ending = .truncated → s₁.block.state = .error ∧ s₁.block.err = .truncated) ∧
      (r.ending = .corrupt → s₁.block.state = .error ∧ s₁.block.err = .struct)

/-- R76: the payload of a symbol sequence decodes to the sequence, whatever tokens follow it; those are never accepted (R84).
A served decode takes one step for each symbol emitted, one for each popped, one for each bit and each byte, and the DONE step (R111).
The serving host is the model's choice (notes/assumptions/9). -/
def Obligations.PayloadDecodesToItsSymbols : Prop :=
  ∀ (s : State) (syms : List Byte) (rest : List Token),
    s.params.wf → Table.wf s.block.ct → conflictFree s.block.ct = true → NoEmptyCode s.block.ct →
    syms.length < 2 ^ 32 → (∀ d ∈ syms, (Table.read s.block.ct d).v = true) →
    Configurable s.block → s.block.total = BitVec.ofNat 32 syms.length → s.block.outq = [] →
    s.host.tokens = (payload s.block.ct syms).map byteToken ++ rest →
    ∃ s₀ s₁ : State, exec .start s = .next s₀ ∧
      servedRun (2 * syms.length + (payloadBits s.block.ct syms).length + (payload s.block.ct syms).length + 1) s₀ = .next s₁ ∧
      s₁.block.state = .done ∧ s₁.block.count.toNat = syms.length ∧ s₁.block.outq = [] ∧
      s₁.host.received = s.host.received ++ syms ∧ s₁.host.tokens = rest

/-- The payload's bytes hold the codes back to back, most significant bit first, with zero bits up to the byte boundary (R31, R34, R42). -/
def Obligations.PackedPayloadHoldsTheCodesInOrder : Prop :=
  ∀ c : BitString, ∃ pad : Nat, pad < 8 ∧
    (packBits c).flatMap byteBits = c ++ List.replicate pad false ∧ (packBits c).length = (c.length + 7) / 8

/-- R78: the degenerate single-symbol tables. With code ε a served decode emits the symbol TOTAL times, accepts no token and ends in `DONE`;
with code "0" a bit 0 leads to the symbol and a bit 1 raises STRUCT.
The serving host is the model's choice (notes/assumptions/9). -/
def Obligations.SingleSymbolTablesDecode : Prop :=
  (∀ (s : State) (d : Byte), s.params.wf → s.block.ct = [(d, { v := true, len := 0, code := [] })] →
    Configurable s.block → s.block.outq = [] →
    ∃ s₀ s₁ : State, exec .start s = .next s₀ ∧ servedRun (2 * s.block.total.toNat + 1) s₀ = .next s₁ ∧
      s₁.block.state = .done ∧ s₁.host.tokens = s.host.tokens ∧
      s₁.host.received = s.host.received ++ List.replicate s.block.total.toNat d) ∧
  (∀ (p : Params) (b : Block) (d : Byte), b.ct = [(d, { v := true, len := 1, code := [false] })] →
    conflictFree b.ct = true ∧
    (b.state = .run → b.count ≠ b.total → b.cur = [] → 0 < b.bitcnt.toNat →
      (b.bitbuf[7] = false → ∃ b', fsmStep p b = some b' ∧ b'.state = .run ∧ matchSym b'.ct b'.cur = some d) ∧
      (b.bitbuf[7] = true → ∃ b', fsmStep p b = some b' ∧ b'.state = .error ∧ b'.err = .struct)))

/-- CT_ENTRY loads one line: the symbol's entry holds the whole code, and the staging register is empty again (R54, R59, R60). -/
def Obligations.CtEntryLoadsOneLine : Prop :=
  ∀ (s : State) (sym : Byte) (c : BitString),
    s.params.wf → Configurable s.block → s.block.stg = [] → s.block.stgLen = 0 → c.length ≤ s.params.maxLen →
    issue (ctEntry sym c) s = .next { s with block := { s.block with
      ct := Table.write s.block.ct sym { v := true, len := BitVec.ofNat 8 c.length, code := c } } }

/-- R61: LOAD_TABLE ends in the same `STATE`, with the valid codes exactly the last line of each symbol it names;
with distinct symbols the result does not depend on the order of the lines.
The spec marks R61 as its own inference from R58, R59, R60 and R37. -/
def Obligations.LoadTableKeepsTheLastLineOfEachSymbol : Prop :=
  ∀ (s : State) (lines : List (Byte × BitString)),
    s.params.wf → Configurable s.block → (∀ e ∈ lines, e.2.length ≤ s.params.maxLen) →
    (∃ s', issue (loadTable lines) s = .next s' ∧ s'.block.state = s.block.state ∧
      ∀ d c, (d, c) ∈ validCodes s'.block.ct ↔ lastLine lines d = some c) ∧
    (∀ other, lines.Perm other → (lines.map fun e => e.1).Nodup → issue (loadTable other) s = issue (loadTable lines) s)

/-- R105: a host that meets WAIT with no token to offer leaves the block in `RUN` for ever: no number of served steps changes it.
The serving host is the model's choice (notes/assumptions/9). -/
def Obligations.DecodeWaitsForEverWithoutTokens : Prop :=
  ∀ (s : State) (k : Nat), inReady s.block = true → s.block.outq = [] → s.host.tokens = [] →
    ∃ s', servedRun k s = .next s' ∧ s'.block = s.block

/-- R106: with a symbol matched and the queue full, no FSM turn and no token turn changes the block.
The interleaving as turns is the model's choice (notes/assumptions/1). -/
def Obligations.FullQueueHoldsTheDecode : Prop :=
  ∀ (s s' : State) (ts : List Turn) (k : Nat) (d : Byte),
    s.block.state = .run → s.block.count ≠ s.block.total → matchSym s.block.ct s.block.cur = some d →
    s.params.outDepth ≤ s.block.outq.length → (∀ t ∈ ts, t = .fsm ∨ t = .token) →
    core.run k (s.withTurns ts) = .next s' → s'.block = s.block ∧ s'.host.tokens = s.host.tokens

/-- The assembler spells the commands, tokens and pseudo-instructions of R53 and R54 as the words the spec writes out (95_test_vectors.md).
Lexical details are the model's choice (notes/assumptions/11). -/
def Obligations.AssemblerLinesSpellTheirWords : Prop :=
  assembleLine "NOP ; nothing".toList = some [.command 0x00000000] ∧
  assembleLine "CT_PUSH \"10\"".toList = some [.command 0x02018000] ∧
  assembleLine "CT_COMMIT 'A'".toList = some [.command 0x03000041] ∧
  assembleLine "CT_ENTRY 66, \"11\"".toList = some [.command 0x0201C000, .command 0x03000042] ∧
  assembleLine "SET_TOTAL 6".toList = some [.command 0x04000006, .command 0x05000000] ∧
  assembleLine "STREAM 0x1F, 0x00".toList = some [.token 0x01F, .token 0x000, .token 0x100] ∧
  assembleLine "CT_PUSH \"\"".toList = none
end

