-- ==== Sys2Proof/Laws/Decode.lean ====
section
/-! SUPPORT. Laws/Decode.lean: bits laid left-aligned (R45, R31), the fields of a word, and the chunks of a code. -/

namespace Sys2Proof

/-! ### Left alignment -/

theorem alignLeft_lt (p : BitString) : ∀ n, p.length ≤ n → alignLeft n p < 2 ^ n := by
  induction p with
  | nil => intro n _; simp [alignLeft]
  | cons b p ih =>
    intro n hn
    obtain ⟨m, rfl⟩ : ∃ m, n = m + 1 := ⟨n - 1, by simp at hn; omega⟩
    have := ih m (by simpa using hn)
    simp only [alignLeft, Nat.add_sub_cancel, Nat.pow_succ]
    split <;> omega

/-- The bit at place `n - 1 - i` of `n` left-aligned bits is the `i`-th bit, and the bits below the string are zero. -/
theorem testBit_alignLeft (p : BitString) :
    ∀ n, p.length ≤ n → ∀ i < n, (alignLeft n p).testBit (n - 1 - i) = p.getD i false := by
  induction p with
  | nil => intro n _ i _; simp [alignLeft]
  | cons b p ih =>
    intro n hn i hi
    obtain ⟨m, rfl⟩ : ∃ m, n = m + 1 := ⟨n - 1, by omega⟩
    have hm : p.length ≤ m := by simpa using hn
    have hlt := alignLeft_lt p m hm
    simp only [alignLeft, Nat.add_sub_cancel]
    cases i with
    | zero =>
      cases b
      · simpa using Nat.testBit_lt_two_pow hlt
      · simp only [if_true, Nat.sub_zero, List.getD_cons_zero]
        rw [Nat.testBit_two_pow_add_eq]
        simp [Nat.testBit_lt_two_pow hlt]
    | succ i =>
      have hi' : i < m := by omega
      have e : m - (i + 1) = m - 1 - i := by omega
      rw [List.getD_cons_succ, ← ih m hm i hi', e]
      cases b
      · simp
      · simp only [if_true]
        rw [Nat.testBit_two_pow_add_gt (by omega)]

/-- The same from the word's side: bit `j` of `n` left-aligned bits. -/
theorem testBit_alignLeft' (p : BitString) (n : Nat) (hp : p.length ≤ n) (j : Nat) (hj : j < n) :
    (alignLeft n p).testBit j = p.getD (n - 1 - j) false := by
  have := testBit_alignLeft p n hp (n - 1 - j) (by omega)
  rwa [show n - 1 - (n - 1 - j) = j by omega] at this

/-! ### The fields of a word -/

/-- The bitwise and of two words laid out in the same fields. -/
theorem append_and_append {n m : Nat} (a c : BitVec n) (b d : BitVec m) : (a ++ b) &&& (c ++ d) = (a &&& c) ++ (b &&& d) := by
  ext j hj; simp only [BitVec.getElem_and, BitVec.getElem_append]; split <;> simp

/-- A word is its opcode followed by the 24 bits of format Z (R44). -/
theorem word_eq_fieldsZ (w : CommandWord) : w = (w.extractLsb' 24 8 ++ w.extractLsb' 0 24 : BitVec 32) := by
  apply BitVec.eq_of_getLsbD_eq; intro j hj
  simp only [BitVec.getLsbD_append, BitVec.getLsbD_extractLsb']
  by_cases h : j < 24
  · simp [h]
  · simp [h, show j - 24 < 8 by omega, show 24 + (j - 24) = j by omega]

/-- A word is its opcode, the reserved bits and the immediate of format I (R44). -/
theorem word_eq_fieldsI (w : CommandWord) :
    w = (w.extractLsb' 24 8 ++ w.extractLsb' 16 8 ++ w.extractLsb' 0 16 : BitVec 32) := by
  apply BitVec.eq_of_getLsbD_eq; intro j hj
  simp only [BitVec.getLsbD_append, BitVec.getLsbD_extractLsb']
  by_cases h : j < 16
  · simp [h]
  · by_cases h' : j - 16 < 8
    · simp [h, h', show 16 + (j - 16) = j by omega]
    · simp [h, h', show j - 16 - 8 < 8 by omega, show 24 + (j - 16 - 8) = j by omega]

/-- A word is its opcode, the reserved bits and the symbol of format S (R44). -/
theorem word_eq_fieldsS (w : CommandWord) :
    w = (w.extractLsb' 24 8 ++ w.extractLsb' 8 16 ++ w.extractLsb' 0 8 : BitVec 32) := by
  apply BitVec.eq_of_getLsbD_eq; intro j hj
  simp only [BitVec.getLsbD_append, BitVec.getLsbD_extractLsb']
  by_cases h : j < 8
  · simp [h]
  · by_cases h' : j - 8 < 16
    · simp [h, h', show 8 + (j - 8) = j by omega]
    · simp [h, h', show j - 8 - 16 < 8 by omega, show 24 + (j - 8 - 16) = j by omega]

/-- A word is its opcode, the reserved bits, `K` and `BITS` of format P (R44). -/
theorem word_eq_fieldsP (w : CommandWord) :
    w = (w.extractLsb' 24 8 ++ w.extractLsb' 20 4 ++ w.extractLsb' 16 4 ++ w.extractLsb' 0 16 : BitVec 32) := by
  apply BitVec.eq_of_getLsbD_eq; intro j hj
  simp only [BitVec.getLsbD_append, BitVec.getLsbD_extractLsb']
  by_cases h : j < 16
  · simp [h]
  · by_cases h' : j - 16 < 4
    · simp [h, h', show 16 + (j - 16) = j by omega]
    · by_cases h'' : j - 16 - 4 < 4
      · simp [h, h', h'', show 20 + (j - 16 - 4) = j by omega]
      · simp [h, h', h'', show j - 16 - 4 - 4 < 8 by omega, show 24 + (j - 16 - 4 - 4) = j by omega]

theorem opcode_of_fieldsZ (op : BitVec 8) (x : BitVec 24) : (op ++ x : BitVec 32).extractLsb' 24 8 = op := by
  ext j hj; rw [BitVec.getElem_extractLsb', BitVec.getLsbD_append]; simp [hj]

theorem rest_of_fieldsZ (op : BitVec 8) (x : BitVec 24) : (op ++ x : BitVec 32).extractLsb' 0 24 = x := by
  ext j hj; rw [BitVec.getElem_extractLsb', BitVec.getLsbD_append]; simp [hj]

theorem opcode_of_fieldsI (op z : BitVec 8) (x : BitVec 16) : (op ++ z ++ x : BitVec 32).extractLsb' 24 8 = op := by
  ext j hj
  rw [BitVec.getElem_extractLsb', BitVec.getLsbD_append, if_neg (by omega), BitVec.getLsbD_append, if_neg (by omega),
    ← BitVec.getLsbD_eq_getElem]
  congr 1; omega

theorem reserved_of_fieldsI (op z : BitVec 8) (x : BitVec 16) : (op ++ z ++ x : BitVec 32).extractLsb' 16 8 = z := by
  ext j hj
  rw [BitVec.getElem_extractLsb', BitVec.getLsbD_append, if_neg (by omega), BitVec.getLsbD_append, if_pos (by omega),
    ← BitVec.getLsbD_eq_getElem]
  congr 1; omega

theorem imm_of_fieldsI (op z : BitVec 8) (x : BitVec 16) : (op ++ z ++ x : BitVec 32).extractLsb' 0 16 = x := by
  ext j hj
  rw [BitVec.getElem_extractLsb', BitVec.getLsbD_append, if_pos (by omega), ← BitVec.getLsbD_eq_getElem]
  congr 1; omega

theorem opcode_of_fieldsS (op : BitVec 8) (z : BitVec 16) (x : BitVec 8) :
    (op ++ z ++ x : BitVec 32).extractLsb' 24 8 = op := by
  ext j hj
  rw [BitVec.getElem_extractLsb', BitVec.getLsbD_append, if_neg (by omega), BitVec.getLsbD_append, if_neg (by omega),
    ← BitVec.getLsbD_eq_getElem]
  congr 1; omega

theorem reserved_of_fieldsS (op : BitVec 8) (z : BitVec 16) (x : BitVec 8) :
    (op ++ z ++ x : BitVec 32).extractLsb' 8 16 = z := by
  ext j hj
  rw [BitVec.getElem_extractLsb', BitVec.getLsbD_append, if_neg (by omega), BitVec.getLsbD_append, if_pos (by omega),
    ← BitVec.getLsbD_eq_getElem]
  congr 1; omega

theorem sym_of_fieldsS (op : BitVec 8) (z : BitVec 16) (x : BitVec 8) :
    (op ++ z ++ x : BitVec 32).extractLsb' 0 8 = x := by
  ext j hj
  rw [BitVec.getElem_extractLsb', BitVec.getLsbD_append, if_pos (by omega), ← BitVec.getLsbD_eq_getElem]
  congr 1; omega

/-! ### The words of CT_PUSH -/

/-- A word of format P stands in its row of R49 when the `BITS` below the pushed ones are zero. -/
theorem pushRow_takes (k : Nat) (hk : k < 16) (x : BitVec 16) (hx : x &&& BitVec.ofNat 16 (2 ^ (15 - k) - 1) = 0#16) :
    (pushRow k).takes (2#8 ++ 0#4 ++ BitVec.ofNat 4 k ++ x) = true := by
  have hmask : (0xFFFF0000#32 ||| BitVec.ofNat 32 (2 ^ (15 - k) - 1)) = 0xFFFF#16 ++ BitVec.ofNat 16 (2 ^ (15 - k) - 1) := by
    clear * - hk; revert k; decide
  have hpat : (0x02000000#32 ||| (BitVec.ofNat 32 k <<< 16)) = (2#8 ++ 0#4 ++ BitVec.ofNat 4 k) ++ 0#16 := by
    clear * - hk; revert k; decide
  have hop : (2#8 ++ 0#4 ++ BitVec.ofNat 4 k) &&& 0xFFFF#16 = 2#8 ++ 0#4 ++ BitVec.ofNat 4 k := by
    clear * - hk; revert k; decide
  simp only [OpcodeRow.takes, pushRow, beq_iff_eq]
  rw [hmask, hpat, append_and_append, hx, hop]

/-- `encode_push` leaves the `BITS` below the pushed ones zero (R45). -/
theorem alignLeft_reserved (p : BitString) (h1 : 1 ≤ p.length) (h2 : p.length ≤ 16) :
    BitVec.ofNat 16 (alignLeft 16 p) &&& BitVec.ofNat 16 (2 ^ (15 - (p.length - 1)) - 1) = 0#16 := by
  ext j hj
  rw [BitVec.getElem_and, ← BitVec.getLsbD_eq_getElem (x := BitVec.ofNat _ (_ - 1)), ← BitVec.getLsbD_eq_getElem,
    BitVec.getLsbD_ofNat, BitVec.getLsbD_ofNat, Nat.testBit_two_pow_sub_one, testBit_alignLeft' p 16 h2 j hj]
  by_cases h : j < 15 - (p.length - 1)
  · rw [List.getD_eq_default _ _ (by omega)]; simp
  · simp [h]

/-- The word of a CT_PUSH stands in its row of R49. -/
theorem encodePush_row (p : BitString) (h1 : 1 ≤ p.length) (h2 : p.length ≤ 16) :
    (pushRow (p.length - 1)).takes (encodePush p) = true :=
  pushRow_takes _ (by omega) _ (alignLeft_reserved p h1 h2)

/-- Every `K` has its row. -/
theorem pushRow_mem {k : Nat} (h : k < 16) : pushRow k ∈ opcodeMap := by
  simp only [opcodeMap, List.mem_append, List.mem_map, List.mem_range]
  exact .inl (.inr ⟨k, h, rfl⟩)

/-- A word that some row takes is a command word. -/
theorem isCommandWord_of_row {w : CommandWord} {r : OpcodeRow} (hr : r ∈ opcodeMap) (h : r.takes w = true) :
    isCommandWord w = true := List.any_eq_true.2 ⟨r, hr, h⟩

/-! ### The chunks of a code -/

namespace Machine

theorem chunksWithin_enough (n : Nat) (hn : 0 < n) (fuel : Nat) :
    ∀ c : BitString, c.length ≤ fuel → chunksWithin n fuel c = chunksWithin n c.length c := by
  induction fuel using Nat.strong_induction_on with
  | _ fuel ih =>
    intro c hc
    cases fuel with
    | zero => cases c with
      | nil => rfl
      | cons b c => simp at hc
    | succ fuel =>
      cases c with
      | nil => rfl
      | cons b c =>
        simp only [chunksWithin, List.length_cons, List.cons.injEq, true_and]
        have hl : ((b :: c).drop n).length ≤ c.length := by simp; omega
        simp only [List.length_cons] at hc
        rw [ih fuel (by omega) _ (by omega)]
        by_cases hf : c.length < fuel + 1
        · by_cases h2 : c.length = fuel
          · rw [h2, ih fuel (by omega) _ (by omega)]
          · rw [ih c.length (by omega) _ hl]
        · omega

@[simp] theorem chunksOf_nil (n : Nat) : chunksOf n [] = [] := rfl

/-- A non-empty code is its first chunk followed by the chunks of what remains. -/
theorem chunksOf_cons (n : Nat) (hn : 0 < n) (c : BitString) (hc : c ≠ []) :
    chunksOf n c = c.take n :: chunksOf n (c.drop n) := by
  cases c with
  | nil => exact absurd rfl hc
  | cons b c =>
    simp only [chunksOf, List.length_cons, chunksWithin]
    rw [chunksWithin_enough n hn c.length _ (by simp; omega)]

end Machine

end Sys2Proof
end

