-- ==== Sys2Proof/Laws/State.lean ====
section
/-! SUPPORT. Laws/State.lean: what every named update of the state leaves in each field, so that no proof unfolds a record update. -/

namespace Sys2Proof.Machine

/-! ### raise -/

@[simp] theorem raise_state (e : ErrCode) (b : Block) : (raise e b).state = .error := rfl
@[simp] theorem raise_err (e : ErrCode) (b : Block) : (raise e b).err = e := rfl
@[simp] theorem raise_total (e : ErrCode) (b : Block) : (raise e b).total = b.total := rfl
@[simp] theorem raise_count (e : ErrCode) (b : Block) : (raise e b).count = b.count := rfl
@[simp] theorem raise_ct (e : ErrCode) (b : Block) : (raise e b).ct = b.ct := rfl
@[simp] theorem raise_stgLen (e : ErrCode) (b : Block) : (raise e b).stgLen = b.stgLen := rfl
@[simp] theorem raise_stg (e : ErrCode) (b : Block) : (raise e b).stg = b.stg := rfl
@[simp] theorem raise_cur (e : ErrCode) (b : Block) : (raise e b).cur = b.cur := rfl
@[simp] theorem raise_bitbuf (e : ErrCode) (b : Block) : (raise e b).bitbuf = b.bitbuf := rfl
@[simp] theorem raise_bitcnt (e : ErrCode) (b : Block) : (raise e b).bitcnt = b.bitcnt := rfl
@[simp] theorem raise_eosf (e : ErrCode) (b : Block) : (raise e b).eosf = b.eosf := rfl
@[simp] theorem raise_outq (e : ErrCode) (b : Block) : (raise e b).outq = b.outq := rfl

/-! ### toIdle -/

@[simp] theorem toIdle_state (b : Block) : (toIdle b).state = .idle := rfl
@[simp] theorem toIdle_err (b : Block) : (toIdle b).err = .noError := rfl
@[simp] theorem toIdle_total (b : Block) : (toIdle b).total = b.total := rfl
@[simp] theorem toIdle_count (b : Block) : (toIdle b).count = b.count := rfl
@[simp] theorem toIdle_ct (b : Block) : (toIdle b).ct = b.ct := rfl
@[simp] theorem toIdle_stgLen (b : Block) : (toIdle b).stgLen = b.stgLen := rfl
@[simp] theorem toIdle_stg (b : Block) : (toIdle b).stg = b.stg := rfl
@[simp] theorem toIdle_cur (b : Block) : (toIdle b).cur = b.cur := rfl
@[simp] theorem toIdle_bitbuf (b : Block) : (toIdle b).bitbuf = b.bitbuf := rfl
@[simp] theorem toIdle_bitcnt (b : Block) : (toIdle b).bitcnt = b.bitcnt := rfl
@[simp] theorem toIdle_eosf (b : Block) : (toIdle b).eosf = b.eosf := rfl
@[simp] theorem toIdle_outq (b : Block) : (toIdle b).outq = b.outq := rfl

/-! ### emptyStaging -/

@[simp] theorem emptyStaging_state (b : Block) : (emptyStaging b).state = b.state := rfl
@[simp] theorem emptyStaging_err (b : Block) : (emptyStaging b).err = b.err := rfl
@[simp] theorem emptyStaging_total (b : Block) : (emptyStaging b).total = b.total := rfl
@[simp] theorem emptyStaging_count (b : Block) : (emptyStaging b).count = b.count := rfl
@[simp] theorem emptyStaging_ct (b : Block) : (emptyStaging b).ct = b.ct := rfl
@[simp] theorem emptyStaging_stgLen (b : Block) : (emptyStaging b).stgLen = 0 := rfl
@[simp] theorem emptyStaging_stg (b : Block) : (emptyStaging b).stg = [] := rfl
@[simp] theorem emptyStaging_cur (b : Block) : (emptyStaging b).cur = b.cur := rfl
@[simp] theorem emptyStaging_bitbuf (b : Block) : (emptyStaging b).bitbuf = b.bitbuf := rfl
@[simp] theorem emptyStaging_bitcnt (b : Block) : (emptyStaging b).bitcnt = b.bitcnt := rfl
@[simp] theorem emptyStaging_eosf (b : Block) : (emptyStaging b).eosf = b.eosf := rfl
@[simp] theorem emptyStaging_outq (b : Block) : (emptyStaging b).outq = b.outq := rfl

/-! ### stage -/

@[simp] theorem stage_state (p : BitString) (b : Block) : (stage p b).state = b.state := rfl
@[simp] theorem stage_err (p : BitString) (b : Block) : (stage p b).err = b.err := rfl
@[simp] theorem stage_total (p : BitString) (b : Block) : (stage p b).total = b.total := rfl
@[simp] theorem stage_count (p : BitString) (b : Block) : (stage p b).count = b.count := rfl
@[simp] theorem stage_ct (p : BitString) (b : Block) : (stage p b).ct = b.ct := rfl
@[simp] theorem stage_stgLen (p : BitString) (b : Block) : (stage p b).stgLen = b.stgLen + BitVec.ofNat 8 p.length := rfl
@[simp] theorem stage_stg (p : BitString) (b : Block) : (stage p b).stg = b.stg ++ p := rfl
@[simp] theorem stage_cur (p : BitString) (b : Block) : (stage p b).cur = b.cur := rfl
@[simp] theorem stage_bitbuf (p : BitString) (b : Block) : (stage p b).bitbuf = b.bitbuf := rfl
@[simp] theorem stage_bitcnt (p : BitString) (b : Block) : (stage p b).bitcnt = b.bitcnt := rfl
@[simp] theorem stage_eosf (p : BitString) (b : Block) : (stage p b).eosf = b.eosf := rfl
@[simp] theorem stage_outq (p : BitString) (b : Block) : (stage p b).outq = b.outq := rfl

/-! ### emptyReader -/

@[simp] theorem emptyReader_state (b : Block) : (emptyReader b).state = b.state := rfl
@[simp] theorem emptyReader_err (b : Block) : (emptyReader b).err = b.err := rfl
@[simp] theorem emptyReader_total (b : Block) : (emptyReader b).total = b.total := rfl
@[simp] theorem emptyReader_count (b : Block) : (emptyReader b).count = b.count := rfl
@[simp] theorem emptyReader_ct (b : Block) : (emptyReader b).ct = b.ct := rfl
@[simp] theorem emptyReader_stgLen (b : Block) : (emptyReader b).stgLen = b.stgLen := rfl
@[simp] theorem emptyReader_stg (b : Block) : (emptyReader b).stg = b.stg := rfl
@[simp] theorem emptyReader_cur (b : Block) : (emptyReader b).cur = b.cur := rfl
@[simp] theorem emptyReader_bitbuf (b : Block) : (emptyReader b).bitbuf = 0 := rfl
@[simp] theorem emptyReader_bitcnt (b : Block) : (emptyReader b).bitcnt = 0 := rfl
@[simp] theorem emptyReader_eosf (b : Block) : (emptyReader b).eosf = false := rfl
@[simp] theorem emptyReader_outq (b : Block) : (emptyReader b).outq = b.outq := rfl

/-! ### loadByte -/

@[simp] theorem loadByte_state (d : Byte) (b : Block) : (loadByte d b).state = b.state := rfl
@[simp] theorem loadByte_err (d : Byte) (b : Block) : (loadByte d b).err = b.err := rfl
@[simp] theorem loadByte_total (d : Byte) (b : Block) : (loadByte d b).total = b.total := rfl
@[simp] theorem loadByte_count (d : Byte) (b : Block) : (loadByte d b).count = b.count := rfl
@[simp] theorem loadByte_ct (d : Byte) (b : Block) : (loadByte d b).ct = b.ct := rfl
@[simp] theorem loadByte_stgLen (d : Byte) (b : Block) : (loadByte d b).stgLen = b.stgLen := rfl
@[simp] theorem loadByte_stg (d : Byte) (b : Block) : (loadByte d b).stg = b.stg := rfl
@[simp] theorem loadByte_cur (d : Byte) (b : Block) : (loadByte d b).cur = b.cur := rfl
@[simp] theorem loadByte_bitbuf (d : Byte) (b : Block) : (loadByte d b).bitbuf = d := rfl
@[simp] theorem loadByte_bitcnt (d : Byte) (b : Block) : (loadByte d b).bitcnt = 8 := rfl
@[simp] theorem loadByte_eosf (d : Byte) (b : Block) : (loadByte d b).eosf = b.eosf := rfl
@[simp] theorem loadByte_outq (d : Byte) (b : Block) : (loadByte d b).outq = b.outq := rfl

/-! ### seeEos -/

@[simp] theorem seeEos_state (b : Block) : (seeEos b).state = b.state := rfl
@[simp] theorem seeEos_err (b : Block) : (seeEos b).err = b.err := rfl
@[simp] theorem seeEos_total (b : Block) : (seeEos b).total = b.total := rfl
@[simp] theorem seeEos_count (b : Block) : (seeEos b).count = b.count := rfl
@[simp] theorem seeEos_ct (b : Block) : (seeEos b).ct = b.ct := rfl
@[simp] theorem seeEos_stgLen (b : Block) : (seeEos b).stgLen = b.stgLen := rfl
@[simp] theorem seeEos_stg (b : Block) : (seeEos b).stg = b.stg := rfl
@[simp] theorem seeEos_cur (b : Block) : (seeEos b).cur = b.cur := rfl
@[simp] theorem seeEos_bitbuf (b : Block) : (seeEos b).bitbuf = b.bitbuf := rfl
@[simp] theorem seeEos_bitcnt (b : Block) : (seeEos b).bitcnt = b.bitcnt := rfl
@[simp] theorem seeEos_eosf (b : Block) : (seeEos b).eosf = true := rfl
@[simp] theorem seeEos_outq (b : Block) : (seeEos b).outq = b.outq := rfl

/-! ### dropBit -/

@[simp] theorem dropBit_state (b : Block) : (dropBit b).state = b.state := rfl
@[simp] theorem dropBit_err (b : Block) : (dropBit b).err = b.err := rfl
@[simp] theorem dropBit_total (b : Block) : (dropBit b).total = b.total := rfl
@[simp] theorem dropBit_count (b : Block) : (dropBit b).count = b.count := rfl
@[simp] theorem dropBit_ct (b : Block) : (dropBit b).ct = b.ct := rfl
@[simp] theorem dropBit_stgLen (b : Block) : (dropBit b).stgLen = b.stgLen := rfl
@[simp] theorem dropBit_stg (b : Block) : (dropBit b).stg = b.stg := rfl
@[simp] theorem dropBit_cur (b : Block) : (dropBit b).cur = b.cur := rfl
@[simp] theorem dropBit_bitbuf (b : Block) : (dropBit b).bitbuf = b.bitbuf <<< 1 := rfl
@[simp] theorem dropBit_bitcnt (b : Block) : (dropBit b).bitcnt = b.bitcnt - 1 := rfl
@[simp] theorem dropBit_eosf (b : Block) : (dropBit b).eosf = b.eosf := rfl
@[simp] theorem dropBit_outq (b : Block) : (dropBit b).outq = b.outq := rfl

/-! ### moveCursor -/

@[simp] theorem moveCursor_state (p : BitString) (b : Block) : (moveCursor p b).state = b.state := rfl
@[simp] theorem moveCursor_err (p : BitString) (b : Block) : (moveCursor p b).err = b.err := rfl
@[simp] theorem moveCursor_total (p : BitString) (b : Block) : (moveCursor p b).total = b.total := rfl
@[simp] theorem moveCursor_count (p : BitString) (b : Block) : (moveCursor p b).count = b.count := rfl
@[simp] theorem moveCursor_ct (p : BitString) (b : Block) : (moveCursor p b).ct = b.ct := rfl
@[simp] theorem moveCursor_stgLen (p : BitString) (b : Block) : (moveCursor p b).stgLen = b.stgLen := rfl
@[simp] theorem moveCursor_stg (p : BitString) (b : Block) : (moveCursor p b).stg = b.stg := rfl
@[simp] theorem moveCursor_cur (p : BitString) (b : Block) : (moveCursor p b).cur = p := rfl
@[simp] theorem moveCursor_bitbuf (p : BitString) (b : Block) : (moveCursor p b).bitbuf = b.bitbuf := rfl
@[simp] theorem moveCursor_bitcnt (p : BitString) (b : Block) : (moveCursor p b).bitcnt = b.bitcnt := rfl
@[simp] theorem moveCursor_eosf (p : BitString) (b : Block) : (moveCursor p b).eosf = b.eosf := rfl
@[simp] theorem moveCursor_outq (p : BitString) (b : Block) : (moveCursor p b).outq = b.outq := rfl

/-! ### emit -/

@[simp] theorem emit_state (s : Byte) (b : Block) : (emit s b).state = b.state := rfl
@[simp] theorem emit_err (s : Byte) (b : Block) : (emit s b).err = b.err := rfl
@[simp] theorem emit_total (s : Byte) (b : Block) : (emit s b).total = b.total := rfl
@[simp] theorem emit_count (s : Byte) (b : Block) : (emit s b).count = b.count + 1 := rfl
@[simp] theorem emit_ct (s : Byte) (b : Block) : (emit s b).ct = b.ct := rfl
@[simp] theorem emit_stgLen (s : Byte) (b : Block) : (emit s b).stgLen = b.stgLen := rfl
@[simp] theorem emit_stg (s : Byte) (b : Block) : (emit s b).stg = b.stg := rfl
@[simp] theorem emit_cur (s : Byte) (b : Block) : (emit s b).cur = [] := rfl
@[simp] theorem emit_bitbuf (s : Byte) (b : Block) : (emit s b).bitbuf = b.bitbuf := rfl
@[simp] theorem emit_bitcnt (s : Byte) (b : Block) : (emit s b).bitcnt = b.bitcnt := rfl
@[simp] theorem emit_eosf (s : Byte) (b : Block) : (emit s b).eosf = b.eosf := rfl
@[simp] theorem emit_outq (s : Byte) (b : Block) : (emit s b).outq = b.outq ++ [s] := rfl

/-! ### doneStep -/

@[simp] theorem doneStep_state (b : Block) : (doneStep b).state = .done := rfl
@[simp] theorem doneStep_err (b : Block) : (doneStep b).err = b.err := rfl
@[simp] theorem doneStep_total (b : Block) : (doneStep b).total = b.total := rfl
@[simp] theorem doneStep_count (b : Block) : (doneStep b).count = b.count := rfl
@[simp] theorem doneStep_ct (b : Block) : (doneStep b).ct = b.ct := rfl
@[simp] theorem doneStep_stgLen (b : Block) : (doneStep b).stgLen = b.stgLen := rfl
@[simp] theorem doneStep_stg (b : Block) : (doneStep b).stg = b.stg := rfl
@[simp] theorem doneStep_cur (b : Block) : (doneStep b).cur = b.cur := rfl
@[simp] theorem doneStep_bitbuf (b : Block) : (doneStep b).bitbuf = b.bitbuf := rfl
@[simp] theorem doneStep_bitcnt (b : Block) : (doneStep b).bitcnt = b.bitcnt := rfl
@[simp] theorem doneStep_eosf (b : Block) : (doneStep b).eosf = b.eosf := rfl
@[simp] theorem doneStep_outq (b : Block) : (doneStep b).outq = b.outq := rfl

/-! ### beginDecode -/

@[simp] theorem beginDecode_state (b : Block) : (beginDecode b).state = .run := rfl
@[simp] theorem beginDecode_err (b : Block) : (beginDecode b).err = b.err := rfl
@[simp] theorem beginDecode_total (b : Block) : (beginDecode b).total = b.total := rfl
@[simp] theorem beginDecode_count (b : Block) : (beginDecode b).count = 0 := rfl
@[simp] theorem beginDecode_ct (b : Block) : (beginDecode b).ct = b.ct := rfl
@[simp] theorem beginDecode_stgLen (b : Block) : (beginDecode b).stgLen = b.stgLen := rfl
@[simp] theorem beginDecode_stg (b : Block) : (beginDecode b).stg = b.stg := rfl
@[simp] theorem beginDecode_cur (b : Block) : (beginDecode b).cur = [] := rfl
@[simp] theorem beginDecode_bitbuf (b : Block) : (beginDecode b).bitbuf = 0 := rfl
@[simp] theorem beginDecode_bitcnt (b : Block) : (beginDecode b).bitcnt = 0 := rfl
@[simp] theorem beginDecode_eosf (b : Block) : (beginDecode b).eosf = false := rfl
@[simp] theorem beginDecode_outq (b : Block) : (beginDecode b).outq = b.outq := rfl

/-! ### The whole state -/

@[simp] theorem onBlock_block (f : Block → Block) (s : State) : (s.onBlock f).block = f s.block := rfl
@[simp] theorem onBlock_params (f : Block → Block) (s : State) : (s.onBlock f).params = s.params := rfl
@[simp] theorem onBlock_host (f : Block → Block) (s : State) : (s.onBlock f).host = s.host := rfl
@[simp] theorem onBlock_id (s : State) : s.onBlock id = s := rfl
@[simp] theorem withTurns_block (ts : List Turn) (s : State) : (s.withTurns ts).block = s.block := rfl
@[simp] theorem withTurns_params (ts : List Turn) (s : State) : (s.withTurns ts).params = s.params := rfl
@[simp] theorem withTurns_turns (ts : List Turn) (s : State) : (s.withTurns ts).host.turns = ts := rfl
@[simp] theorem withTurns_cmds (ts : List Turn) (s : State) : (s.withTurns ts).host.cmds = s.host.cmds := rfl
@[simp] theorem withTurns_tokens (ts : List Turn) (s : State) : (s.withTurns ts).host.tokens = s.host.tokens := rfl
@[simp] theorem withTurns_received (ts : List Turn) (s : State) : (s.withTurns ts).host.received = s.host.received := rfl

end Sys2Proof.Machine
end

