-- ==== Sys2Proof/Laws/Ops.lean ====
section
/-! SUPPORT. Laws/Ops.lean: one lemma for each shared operation that says all it can do; the laws of the table. -/

namespace Sys2Proof.Machine

/-! ### Errors and gating -/

/-- A gated command has no effect, raises BUSY, or performs; each with the state in which it does (R56). -/
theorem gate_cases (inError inRun : Bool) (perform : Block → Block) (b : Block) :
    (b.state = .error ∧ inError = false ∧ gate inError inRun perform b = b) ∨
    (b.state = .run ∧ inRun = false ∧ gate inError inRun perform b = raise .busy b) ∨
    ((b.state = .error → inError = true) ∧ (b.state = .run → inRun = true) ∧
      gate inError inRun perform b = perform b) := by
  cases hs : b.state <;> cases inError <;> cases inRun <;> simp [gate, hs]

theorem gate_of_configurable {b : Block} (h : Configurable b) (inError inRun : Bool) (perform : Block → Block) :
    gate inError inRun perform b = perform b := by
  rcases h with h | h <;> simp [gate, h]

theorem gate_of_run {b : Block} (h : b.state = .run) (inError : Bool) (perform : Block → Block) :
    gate inError false perform b = raise .busy b := by simp [gate, h]

theorem gate_of_error {b : Block} (h : b.state = .error) (inRun : Bool) (perform : Block → Block) :
    gate false inRun perform b = b := by simp [gate, h]

@[simp] theorem gate_id (inError : Bool) (b : Block) : gate inError true id b = b := by
  cases hs : b.state <;> cases inError <;> simp [gate, hs]

@[simp] theorem gate_always (perform : Block → Block) (b : Block) : gate true true perform b = perform b := by
  cases hs : b.state <;> simp [gate, hs]

/-- An illegal word is ignored in `ERROR` and raises ILLEGAL_CMD elsewhere (R56). -/
theorem gateIllegal_eq (b : Block) : gateIllegal b = if b.state = .error then b else raise .illegalCmd b := by
  cases hs : b.state <;> simp [gateIllegal, hs]

theorem not_configurable_of_run {b : Block} (h : b.state = .run) : ¬ Configurable b := by
  simp [Configurable, h]

theorem not_configurable_of_error {b : Block} (h : b.state = .error) : ¬ Configurable b := by
  simp [Configurable, h]

/-! ### The table -/

@[simp] theorem read_nil (d : Byte) : Table.read [] d = .invalid := rfl
@[simp] theorem read_cleared (d : Byte) : Table.read Table.cleared d = .invalid := rfl
@[simp] theorem validCodes_cleared : validCodes Table.cleared = [] := rfl

theorem read_cons (k : Byte) (e : Entry) (t : Table) (d : Byte) :
    Table.read ((k, e) :: t) d = if k = d then e else Table.read t d := rfl

/-- Read after write: the written symbol has the new entry, every other symbol its old one (R19). -/
theorem read_write (t : Table) (s d : Byte) (e : Entry) (he : e ≠ .invalid) :
    Table.read (Table.write t s e) d = if d = s then e else Table.read t d := by
  induction t with
  | nil => simp [Table.write, he, read_cons, eq_comm]
  | cons f t ih =>
    obtain ⟨k, f⟩ := f
    simp only [Table.write, he, if_false]
    split
    · simp [read_cons, eq_comm]
    · split
      · next h => subst h; by_cases hd : d = s <;> simp [read_cons, hd, eq_comm (a := s)]
      · next h =>
        simp only [read_cons, ih]
        by_cases hk : k = d
        · subst hk; simp [Ne.symm h]
        · simp [hk]

theorem mem_write {t : Table} {s : Byte} {e : Entry} {x : Byte × Entry} (h : x ∈ Table.write t s e) :
    x ∈ t ∨ x = (s, e) ∧ e ≠ .invalid := by
  induction t with
  | nil => by_cases he : e = .invalid <;> simp_all [Table.write]
  | cons f t ih =>
    obtain ⟨k, f⟩ := f
    simp only [Table.write] at h
    split at h
    · split at h <;> simp_all
      tauto
    · split at h
      · split at h <;> simp_all
        tauto
      · simp only [List.mem_cons] at h ⊢
        rcases h with h | h
        · exact .inl (.inl h)
        · rcases ih h with h | h
          · exact .inl (.inr h)
          · exact .inr h

theorem wf_nil : Table.wf [] := by simp [Table.wf]

theorem wf_cons {k : Byte} {e : Entry} {t : Table} :
    Table.wf ((k, e) :: t) ↔ (∀ x ∈ t, k.toNat < x.1.toNat) ∧ e ≠ .invalid ∧ Table.wf t := by
  simp only [Table.wf, List.pairwise_cons, List.mem_cons, forall_eq_or_imp]
  tauto

/-- Every write keeps the canonical form. -/
theorem wf_write {t : Table} (h : Table.wf t) (s : Byte) (e : Entry) : Table.wf (Table.write t s e) := by
  induction t with
  | nil => by_cases he : e = .invalid <;> simp [Table.write, he, Table.wf]
  | cons f t ih =>
    obtain ⟨k, f⟩ := f
    have h' := wf_cons.1 h
    simp only [Table.write]
    split
    · next hk =>
      split
      · exact h
      · next he =>
        refine wf_cons.2 ⟨?_, he, h⟩
        simp only [List.mem_cons, forall_eq_or_imp]
        exact ⟨hk, fun x hx => hk.trans (h'.1 x hx)⟩
    · next hk =>
      split
      · next hs =>
        subst hs
        split
        · exact h'.2.2
        · next he => exact wf_cons.2 ⟨h'.1, he, h'.2.2⟩
      · next hs =>
        refine wf_cons.2 ⟨fun x hx => ?_, h'.2.1, ih h'.2.2⟩
        rcases mem_write hx with hx | ⟨rfl, -⟩
        · exact h'.1 x hx
        · have : k.toNat ≠ s.toNat := fun hh => hs (BitVec.eq_of_toNat_eq hh.symm)
          simp only
          omega

/-- In a table in canonical form, an entry is listed exactly when it reads as a valid or non-empty entry. -/
theorem mem_iff_read {t : Table} (h : Table.wf t) {d : Byte} {e : Entry} :
    (d, e) ∈ t ↔ Table.read t d = e ∧ e ≠ .invalid := by
  induction t with
  | nil => simp [eq_comm]
  | cons f t ih =>
    obtain ⟨k, f⟩ := f
    have h' := wf_cons.1 h
    simp only [List.mem_cons, Prod.mk.injEq, read_cons]
    by_cases hk : k = d
    · subst hk
      have : (k, e) ∉ t := fun hm => absurd (h'.1 _ hm) (lt_irrefl _)
      simp only [this, or_false, true_and, if_true]
      constructor
      · rintro rfl; exact ⟨rfl, h'.2.1⟩
      · rintro ⟨rfl, -⟩; rfl
    · simp only [hk, Ne.symm hk, false_and, false_or, if_false]
      exact ih h'.2.2

/-- The valid codes of a table in canonical form are those its entries read (R37). -/
theorem mem_validCodes {t : Table} (h : Table.wf t) {d : Byte} {c : BitString} :
    (d, c) ∈ validCodes t ↔ (Table.read t d).v = true ∧ (Table.read t d).code = c := by
  simp only [validCodes, List.mem_filterMap, Prod.exists]
  constructor
  · rintro ⟨d', e, hm, he⟩
    split at he
    · next hv =>
      simp only [Option.some.injEq, Prod.mk.injEq] at he
      obtain ⟨rfl, rfl⟩ := he
      obtain ⟨rfl, -⟩ := (mem_iff_read h).1 hm
      exact ⟨hv, rfl⟩
    · simp at he
  · rintro ⟨hv, rfl⟩
    refine ⟨d, Table.read t d, (mem_iff_read h).2 ⟨rfl, ?_⟩, by simp [hv]⟩
    intro hi
    simp [hi, Entry.invalid] at hv

/-- In a table in canonical form no symbol has two valid codes (R19). -/
theorem validCodes_pairwise {t : Table} (h : Table.wf t) :
    (validCodes t).Pairwise fun a b => a.1.toNat < b.1.toNat := by
  induction t with
  | nil => simp [validCodes]
  | cons f t ih =>
    obtain ⟨k, e⟩ := f
    have h' := wf_cons.1 h
    have hk : ∀ x ∈ validCodes t, k.toNat < x.1.toNat := by
      intro x hx
      simp only [validCodes, List.mem_filterMap] at hx
      obtain ⟨y, hy, hyx⟩ := hx
      split at hyx
      · simp only [Option.some.injEq] at hyx; subst hyx; exact h'.1 y hy
      · simp at hyx
    unfold validCodes at *
    simp only [List.filterMap_cons]
    cases hv : e.v
    · simpa [hv] using ih h'.2.2
    · simp only [if_true, List.pairwise_cons]
      exact ⟨hk, ih h'.2.2⟩

end Sys2Proof.Machine
end

