-- ==== Sys2Proof/Laws/Exec.lean ====
section
/-! SUPPORT. Laws/Exec.lean: what `exec` does, said once: every instruction answers a next state that differs in the block alone,
and one lemma for each instruction says which block. -/

namespace Sys2Proof.Machine

/-- The change of the block that an instruction makes. -/
def blockEffect (p : Params) (i : Instr) (b : Block) : Block :=
  match i with
  | .nop => b
  | .ctClear => gate false false performCtClear b
  | .ctPush bits => gate false false (performCtPush p bits) b
  | .ctCommit sym => gate false false (performCtCommit sym) b
  | .setTotalLo imm => gate false false (performSetTotalLo imm) b
  | .setTotalHi imm => gate false false (performSetTotalHi imm) b
  | .start => gate false false performStart b
  | .abort => toIdle b
  | .inByte d => if inReady b then loadByte d b else b
  | .inEos => if inReady b then seeEos b else b
  | .illegal _ => if b.state = .error then b else raise .illegalCmd b

/-- Every instruction answers a next state, and changes nothing but the block. -/
theorem exec_eq (i : Instr) (s : State) :
    exec i s = .next { s with block := blockEffect s.params i s.block } := by
  cases i <;>
    simp [exec, blockEffect, execNop, execCtClear, execCtPush, execCtCommit, execSetTotalLo, execSetTotalHi, execStart,
      execAbort, execInByte, execInEos, execIllegal, acceptWhenReady, State.onBlock, gateIllegal_eq]

theorem exec_next {i : Instr} {s s' : State} (h : exec i s = .next s') :
    s' = { s with block := blockEffect s.params i s.block } := by
  rw [exec_eq] at h
  exact (Host.Outcome.next.inj h).symm

/-! ### What each command performs -/

theorem performCtClear_eq (b : Block) :
    performCtClear b = { b with ct := Table.cleared, stg := [], stgLen := 0 } := rfl

/-- CT_PUSH stages its bits, or raises CODE_TOO_LONG. -/
theorem performCtPush_cases (p : Params) (bits : BitString) (b : Block) :
    (b.stgLen.toNat + bits.length ≤ p.maxLen ∧ performCtPush p bits b = stage bits b) ∨
    (p.maxLen < b.stgLen.toNat + bits.length ∧ performCtPush p bits b = raise .codeTooLong b) := by
  by_cases h : p.maxLen < b.stgLen.toNat + bits.length
  · exact .inr ⟨h, by simp [performCtPush, stagingOverflows, h]⟩
  · exact .inl ⟨Nat.le_of_not_lt h, by simp [performCtPush, stagingOverflows, h]⟩

theorem performCtCommit_eq (sym : Byte) (b : Block) :
    performCtCommit sym b =
      { b with ct := Table.write b.ct sym { v := true, len := b.stgLen, code := b.stg }, stg := [], stgLen := 0 } := rfl

/-- START begins a decode, or raises TABLE_CONFLICT. -/
theorem performStart_cases (b : Block) :
    (conflictFree b.ct = true ∧ performStart b = beginDecode b) ∨
    (conflictFree b.ct = false ∧ performStart b = raise .tableConflict b) := by
  cases h : conflictFree b.ct <;> simp [performStart, h]

/-- A staged entry is never the invalid one. -/
theorem stagedEntry_ne (b : Block) : stagedEntry b ≠ Entry.invalid := by
  simp [stagedEntry, Entry.invalid]

/-- What `in_ready = 1` says (R79). -/
theorem inReady_iff (b : Block) :
    inReady b = true ↔ b.state = .run ∧ b.count ≠ b.total ∧ matchSym b.ct b.cur = none ∧ b.bitcnt = 0 ∧ b.eosf = false := by
  simp [inReady, and_assoc]

theorem inReady_of_not_run {b : Block} (h : b.state ≠ .run) : inReady b = false := by
  simp [inReady, h]

/-! ### All an instruction can do -/

/-- Every case of an instruction's effect, with what the case needs: no effect, ILLEGAL_CMD, BUSY, ABORT, an accepted token,
or a command that performs in `IDLE` or `DONE`. -/
theorem effect_cases (p : Params) (i : Instr) (b : Block) :
   blockEffect p i b = b ∨
   (b.state ≠ .error ∧ ∃ w, i = .illegal w ∧ blockEffect p i b = raise .illegalCmd b) ∨
   (b.state = .run ∧ (∀ w, i ≠ .illegal w) ∧ blockEffect p i b = raise .busy b ∧ i ≠ .abort ∧ (∀ d, i ≠ .inByte d) ∧ i ≠ .inEos) ∨
   (i = .abort ∧ blockEffect p i b = toIdle b) ∨
   (inReady b = true ∧ ((∃ d, i = .inByte d ∧ blockEffect p i b = loadByte d b) ∨ i = .inEos ∧ blockEffect p i b = seeEos b)) ∨
   (Configurable b ∧ 
     ((i = .ctClear ∧ blockEffect p i b = performCtClear b) ∨
      (∃ bits, i = .ctPush bits ∧ b.stgLen.toNat + bits.length ≤ p.maxLen ∧ blockEffect p i b = stage bits b) ∨
      (∃ bits, i = .ctPush bits ∧ p.maxLen < b.stgLen.toNat + bits.length ∧ blockEffect p i b = raise .codeTooLong b) ∨
      (∃ sym, i = .ctCommit sym ∧ blockEffect p i b = performCtCommit sym b) ∨
      (∃ imm, i = .setTotalLo imm ∧ blockEffect p i b = performSetTotalLo imm b) ∨
      (∃ imm, i = .setTotalHi imm ∧ blockEffect p i b = performSetTotalHi imm b) ∨
      (i = .start ∧ conflictFree b.ct = true ∧ blockEffect p i b = beginDecode b) ∨
      (i = .start ∧ conflictFree b.ct = false ∧ blockEffect p i b = raise .tableConflict b))) := by
  have hcfg : ∀ f, b.state ≠ .error → b.state ≠ .run → Configurable b ∧ gate false false f b = f b := by
    intro f h1 h2
    have : Configurable b := by cases h : b.state <;> simp_all [Configurable]
    exact ⟨this, gate_of_configurable this _ _ _⟩
  by_cases he : b.state = .error
  · cases i <;> simp only [blockEffect, gate_of_error he, inReady_of_not_run (show b.state ≠ .run by rw [he]; decide)] <;> simp [he]
  by_cases hr : b.state = .run
  · cases i <;> simp only [blockEffect, gate_of_run hr] <;> simp [hr]
    · cases h : inReady b <;> simp
    · cases h : inReady b <;> simp
  · cases i with
    | nop => left; rfl
    | illegal w => right; left; exact ⟨he, w, rfl, by simp [blockEffect, he]⟩
    | abort => right; right; right; left; exact ⟨rfl, rfl⟩
    | inByte d => left; simp [blockEffect, inReady_of_not_run hr]
    | inEos => left; simp [blockEffect, inReady_of_not_run hr]
    | ctClear => obtain ⟨h1, h2⟩ := hcfg performCtClear he hr; simp only [blockEffect, h2]; simp [h1]
    | ctPush bits =>
      obtain ⟨h1, h2⟩ := hcfg (performCtPush p bits) he hr
      simp only [blockEffect, h2]
      rcases performCtPush_cases p bits b with ⟨h3, h4⟩ | ⟨h3, h4⟩ <;> rw [h4] <;> simp [h1, h3]
    | ctCommit s => obtain ⟨h1, h2⟩ := hcfg (performCtCommit s) he hr; simp only [blockEffect, h2]; simp [h1]
    | setTotalLo s => obtain ⟨h1, h2⟩ := hcfg (performSetTotalLo s) he hr; simp only [blockEffect, h2]; simp [h1]
    | setTotalHi s => obtain ⟨h1, h2⟩ := hcfg (performSetTotalHi s) he hr; simp only [blockEffect, h2]; simp [h1]
    | start =>
      obtain ⟨h1, h2⟩ := hcfg performStart he hr
      simp only [blockEffect, h2]
      rcases performStart_cases b with ⟨h3, h4⟩ | ⟨h3, h4⟩ <;> rw [h4] <;> simp [h1, h3]

end Sys2Proof.Machine
end

