-- ==== Sys2Proof/Laws/Fsm.lean ====
section
/-! SUPPORT. Laws/Fsm.lean: what an FSM step can do, said once (R66 to R71). -/

namespace Sys2Proof.Machine

theorem fsmMove_of_not_run (p : Params) {b : Block} (h : b.state ≠ .run) : fsmMove p b = .none := by
  simp [fsmMove, h]

theorem fsmStep_of_not_run (p : Params) {b : Block} (h : b.state ≠ .run) : fsmStep p b = none := by
  simp [fsmStep, fsmMove, h]

theorem fsmStep_done (p : Params) {b : Block} (h : b.state = .run) (hc : b.count = b.total) :
    fsmStep p b = some (doneStep b) := by
  simp [fsmStep, fsmMove, h, hc]

theorem fsmStep_emit {p : Params} {b : Block} {d : Byte} (h : b.state = .run) (hc : b.count ≠ b.total)
    (hm : matchSym b.ct b.cur = some d) (hq : b.outq.length < p.outDepth) : fsmStep p b = some (emit d b) := by
  simp [fsmStep, fsmMove, h, hc, hm, hq]

theorem fsmStep_hold {p : Params} {b : Block} {d : Byte} (h : b.state = .run) (hc : b.count ≠ b.total)
    (hm : matchSym b.ct b.cur = some d) (hq : p.outDepth ≤ b.outq.length) : fsmStep p b = none := by
  simp [fsmStep, fsmMove, h, hc, hm, Nat.not_lt.2 hq]

theorem fsmStep_bit (p : Params) {b : Block} (h : b.state = .run) (hc : b.count ≠ b.total)
    (hm : matchSym b.ct b.cur = none) (hb : b.bitcnt ≠ 0) : fsmStep p b = some (bitStep b) := by
  simp [fsmStep, fsmMove, h, hc, hm, show ¬ b.bitcnt = 0#4 from hb]

theorem fsmStep_truncated (p : Params) {b : Block} (h : b.state = .run) (hc : b.count ≠ b.total)
    (hm : matchSym b.ct b.cur = none) (hb : b.bitcnt = 0) (he : b.eosf = true) :
    fsmStep p b = some (truncatedStep b) := by
  simp [fsmStep, fsmMove, h, hc, hm, hb, he]

theorem fsmStep_wait {p : Params} {b : Block} (h : inReady b = true) : fsmStep p b = none := by
  obtain ⟨h, hc, hm, hb, he⟩ := (inReady_iff b).1 h
  simp [fsmStep, fsmMove, h, hc, hm, hb, he]

/-- The bit step descends, or raises STRUCT with the bit consumed. -/
theorem bitStep_cases (b : Block) :
    (isNode b.ct (b.cur ++ [nextBit b]) = true ∧ bitStep b = moveCursor (b.cur ++ [nextBit b]) (dropBit b)) ∨
    (isNode b.ct (b.cur ++ [nextBit b]) = false ∧ bitStep b = raise .struct (dropBit b)) := by
  cases h : isNode b.ct (b.cur ++ [nextBit b]) <;> simp [bitStep, h]

/-- All an FSM step can do, with what each case needs. -/
theorem fsmStep_cases {p : Params} {b b' : Block} (h : fsmStep p b = some b') :
    b.state = .run ∧
    ((b.count = b.total ∧ b' = doneStep b) ∨
     (b.count ≠ b.total ∧ ∃ d, matchSym b.ct b.cur = some d ∧ b.outq.length < p.outDepth ∧ b' = emit d b) ∨
     (b.count ≠ b.total ∧ matchSym b.ct b.cur = none ∧ b.bitcnt ≠ 0 ∧
       isNode b.ct (b.cur ++ [nextBit b]) = true ∧ b' = moveCursor (b.cur ++ [nextBit b]) (dropBit b)) ∨
     (b.count ≠ b.total ∧ matchSym b.ct b.cur = none ∧ b.bitcnt ≠ 0 ∧
       isNode b.ct (b.cur ++ [nextBit b]) = false ∧ b' = raise .struct (dropBit b)) ∨
     (b.count ≠ b.total ∧ matchSym b.ct b.cur = none ∧ b.bitcnt = 0 ∧ b.eosf = true ∧ b' = raise .truncated b)) := by
  by_cases hr : b.state = .run
  swap
  · simp [fsmStep_of_not_run p hr] at h
  refine ⟨hr, ?_⟩
  by_cases hc : b.count = b.total
  · rw [fsmStep_done p hr hc] at h
    exact .inl ⟨hc, (Option.some.inj h).symm⟩
  cases hm : matchSym b.ct b.cur with
  | some d =>
    by_cases hq : b.outq.length < p.outDepth
    · rw [fsmStep_emit hr hc hm hq] at h
      exact .inr (.inl ⟨hc, d, rfl, hq, (Option.some.inj h).symm⟩)
    · rw [fsmStep_hold hr hc hm (Nat.le_of_not_lt hq)] at h
      cases h
  | none =>
    by_cases hb : b.bitcnt = 0
    · cases he : b.eosf
      · simp [fsmStep_wait ((inReady_iff b).2 ⟨hr, hc, hm, hb, he⟩)] at h
      · rw [fsmStep_truncated p hr hc hm hb he] at h
        exact .inr (.inr (.inr (.inr ⟨hc, rfl, hb, rfl, (Option.some.inj h).symm⟩)))
    · rw [fsmStep_bit p hr hc hm hb] at h
      obtain rfl := Option.some.inj h
      rcases bitStep_cases b with ⟨hn, hb'⟩ | ⟨hn, hb'⟩
      · exact .inr (.inr (.inl ⟨hc, rfl, hb, hn, hb'⟩))
      · exact .inr (.inr (.inr (.inl ⟨hc, rfl, hb, hn, hb'⟩)))

end Sys2Proof.Machine
end

