-- ==== Sys2Proof/Laws/Step.lean ====
section
/-! SUPPORT. Laws/Step.lean: all that one step can do, said once. -/

namespace Sys2Proof.Machine

/-- The host's side after a turn has been used up. -/
def HostSide.nextTurn (h : HostSide) : HostSide := { h with turns := h.turns.tail }

@[simp] theorem nextTurn_cmds (h : HostSide) : h.nextTurn.cmds = h.cmds := rfl
@[simp] theorem nextTurn_tokens (h : HostSide) : h.nextTurn.tokens = h.tokens := rfl
@[simp] theorem nextTurn_turns (h : HostSide) : h.nextTurn.turns = h.turns.tail := rfl
@[simp] theorem nextTurn_received (h : HostSide) : h.nextTurn.received = h.received := rfl

/-- What a turn that is not reset does when its transition is not enabled: it passes. -/
def TurnPasses (s s' : State) : Prop :=
  s.host.turns ≠ [] ∧ s.host.turns.head? ≠ some .reset ∧ s' = { s with host := s.host.nextTurn }

/-- All a step that answers a next state can have done. -/
theorem step_cases {s s' : State} (h : step s = .next s') :
    (∃ b, fsmStep s.params s.block = some b ∧ (s.host.turns = [] ∨ s.host.turns.head? = some .fsm) ∧
      s' = { s with block := b, host := s.host.nextTurn }) ∨
    (∃ w ws, s.host.turns.head? = some .command ∧ s.host.cmds = w :: ws ∧
      s' = { s with block := blockEffect s.params (decodeCommand w) s.block, host := { s.host.nextTurn with cmds := ws } }) ∨
    (∃ t ts, s.host.turns.head? = some .token ∧ s.host.tokens = t :: ts ∧ inReady s.block = true ∧
      s' = { s with block := blockEffect s.params (decodeToken t) s.block, host := { s.host.nextTurn with tokens := ts } }) ∨
    (∃ d q, s.host.turns.head? = some .pop ∧ s.block.outq = d :: q ∧
      s' = { s with block := { s.block with outq := q },
                    host := { s.host.nextTurn with received := s.host.received ++ [d] } }) ∨
    (s.host.turns.head? = some .reset ∧ s' = { s with block := Block.reset, host := s.host.nextTurn }) ∨
    TurnPasses s s' := by
  obtain ⟨p, b, ⟨cmds, tokens, turns, received⟩⟩ := s
  cases turns with
  | nil =>
    left
    simp only [step, stepOnce, fsmAlone] at h
    cases hf : fsmStep p b with
    | none => simp [hf] at h
    | some b' =>
      simp only [hf, Host.Outcome.next.injEq] at h
      exact ⟨b', rfl, .inl rfl, h.symm⟩
  | cons t ts =>
    simp only [step, stepOnce] at h
    cases t with
    | command =>
      cases cmds with
      | nil =>
        simp only [takeTurn, commandTurn, State.withTurns, Host.Outcome.next.injEq] at h
        exact .inr (.inr (.inr (.inr (.inr ⟨by simp, by simp, h.symm⟩))))
      | cons w ws =>
        simp only [takeTurn, commandTurn, State.withTurns, exec_eq, Host.Outcome.next.injEq] at h
        exact .inr (.inl ⟨w, ws, rfl, rfl, h.symm⟩)
    | token =>
      cases tokens with
      | nil =>
        simp only [takeTurn, tokenTurn, State.withTurns, Host.Outcome.next.injEq] at h
        exact .inr (.inr (.inr (.inr (.inr ⟨by simp, by simp, h.symm⟩))))
      | cons w ws =>
        cases hr : inReady b with
        | true =>
          simp only [takeTurn, tokenTurn, State.withTurns, hr, if_true, exec_eq, Host.Outcome.next.injEq] at h
          exact .inr (.inr (.inl ⟨w, ws, rfl, rfl, rfl, h.symm⟩))
        | false =>
          have hb : blockEffect p (decodeToken w) b = b := by
            unfold decodeToken
            split <;> simp [blockEffect, hr]
          simp only [takeTurn, tokenTurn, State.withTurns, hr, Bool.false_eq_true, if_false, exec_eq, hb,
            Host.Outcome.next.injEq] at h
          exact .inr (.inr (.inr (.inr (.inr ⟨by simp, by simp, h.symm⟩))))
    | pop =>
      simp only [takeTurn, popTurn, State.withTurns, popOutput] at h
      cases hq : b.outq with
      | nil =>
        simp only [hq, Host.Outcome.next.injEq] at h
        exact .inr (.inr (.inr (.inr (.inr ⟨by simp, by simp, h.symm⟩))))
      | cons d q =>
        simp only [hq, Host.Outcome.next.injEq] at h
        exact .inr (.inr (.inr (.inl ⟨d, q, rfl, rfl, h.symm⟩)))
    | reset =>
      simp only [takeTurn, resetTurn, State.withTurns, State.onBlock, Host.Outcome.next.injEq] at h
      exact .inr (.inr (.inr (.inr (.inl ⟨rfl, h.symm⟩))))
    | fsm =>
      simp only [takeTurn, fsmTurn, State.withTurns, State.onBlock] at h
      cases hf : fsmStep p b with
      | none =>
        simp only [hf, Host.Outcome.next.injEq] at h
        exact .inr (.inr (.inr (.inr (.inr ⟨by simp, by simp, h.symm⟩))))
      | some b' =>
        simp only [hf, Host.Outcome.next.injEq] at h
        exact .inl ⟨b', rfl, .inr rfl, h.symm⟩

/-- An accepted token changes the reader alone (R80, R81). -/
theorem blockEffect_token (p : Params) (t : Token) {b : Block} (h : inReady b = true) :
    blockEffect p (decodeToken t) b = if t[8] then seeEos b else loadByte (t.extractLsb' 0 8) b := by
  unfold decodeToken
  split <;> simp [blockEffect, h]

end Sys2Proof.Machine
end

