-- ==== Sys2Proof/Laws/DecodeRun.lean ====
section
/-! SUPPORT. Laws/DecodeRun.lean: the ways out of `RUN`, and what a decode's symbols have to do with what leaves the block (R77). -/

namespace Sys2Proof.Machine

@[simp] theorem here_symbols (b : Block) : (DecodeEnd.here b).symbols = [] := rfl
@[simp] theorem here_state (b : Block) : (DecodeEnd.here b).state = b.state := rfl
@[simp] theorem here_err (b : Block) : (DecodeEnd.here b).err = b.err := rfl
@[simp] theorem here_count (b : Block) : (DecodeEnd.here b).count = b.count := rfl
@[simp] theorem after_symbols (ds : List Byte) (e : DecodeEnd) : (e.after ds).symbols = ds ++ e.symbols := rfl
@[simp] theorem after_state (ds : List Byte) (e : DecodeEnd) : (e.after ds).state = e.state := rfl
@[simp] theorem after_err (ds : List Byte) (e : DecodeEnd) : (e.after ds).err = e.err := rfl
@[simp] theorem after_count (ds : List Byte) (e : DecodeEnd) : (e.after ds).count = e.count := rfl

/-- Where the FSM has the turn, its enabled step is the step. -/
theorem step_of_fsmStep {s : State} {b : Block} (h : fsmIsNext s = true) (hf : fsmStep s.params s.block = some b) :
    step s = .next { s with block := b, host := s.host.nextTurn } := by
  obtain ⟨p, c, ⟨cmds, tokens, turns, received⟩⟩ := s
  cases turns with
  | nil => simp only at hf; simp only [step, stepOnce, fsmAlone, hf]; rfl
  | cons t ts =>
    obtain rfl : t = .fsm := by simpa [fsmIsNext] using h
    simp only at hf; simp only [step, stepOnce, takeTurn, fsmTurn, State.withTurns, hf]; rfl

/-- A step whose FSM does not have the turn appends nothing. -/
theorem appended_of_host {s : State} (h : fsmIsNext s = false) : appended s = [] := by simp [appended, h]

/-- A step whose FSM has the turn appends a symbol exactly when it is an EMIT step. -/
theorem appended_of_fsmStep {s : State} {b : Block} (h : fsmIsNext s = true) (hf : fsmStep s.params s.block = some b) :
    b.outq = s.block.outq ++ appended s := by
  unfold fsmStep at hf
  cases hm : fsmMove s.params s.block <;> simp only [hm, Option.some.injEq, reduceCtorEq] at hf <;> subst hf <;>
    simp [appended, h, hm, doneStep, truncatedStep]
  rcases bitStep_cases s.block with ⟨_, hb⟩ | ⟨_, hb⟩ <;> simp [hb]

/-- `RUN` is left by the FSM's DONE step, by an error of the FSM or of a command, by ABORT, or by reset, and in no other way. -/
theorem step_leaves_run {s s' : State} (hr : s.block.state = .run) (h : step s = .next s') (hn : s'.block.state ≠ .run) :
    (s'.block.state = .done ∧ s.block.count = s.block.total ∧ fsmIsNext s = true) ∨
    (s'.block.state = .error ∧ (s'.block.err = .truncated ∨ s'.block.err = .struct) ∧ fsmIsNext s = true) ∨
    (s'.block.state = .error ∧ (s'.block.err = .busy ∨ s'.block.err = .illegalCmd) ∧ s.host.turns.head? = some .command) ∨
    (s'.block.state = .idle ∧ (commandIsNext .abort s ∨ resetIsNext s)) := by
  rcases step_cases h with ⟨b, hf, ht, rfl⟩ | ⟨w, ws, ht, hw, rfl⟩ | ⟨t, ts, _, _, hi, rfl⟩ | ⟨d, q, _, _, rfl⟩ | ⟨ht, rfl⟩ | ⟨_, _, rfl⟩
  · have hfsm : fsmIsNext s = true := by cases hs : s.host.turns <;> simp_all [fsmIsNext]
    rcases (fsmStep_cases hf).2 with ⟨hc, rfl⟩ | ⟨_, d, _, _, rfl⟩ | ⟨_, _, _, _, rfl⟩ | ⟨_, _, _, _, rfl⟩ | ⟨_, _, _, _, rfl⟩
    · exact .inl ⟨rfl, hc, hfsm⟩
    · exact absurd hr hn
    · exact absurd hr hn
    · exact .inr (.inl ⟨rfl, .inr rfl, hfsm⟩)
    · exact .inr (.inl ⟨rfl, .inl rfl, hfsm⟩)
  · rcases effect_cases s.params (decodeCommand w) s.block with he | ⟨_, v, _, he⟩ | ⟨_, _, he, _⟩ | ⟨hi, he⟩ |
      ⟨_, ⟨d, _, he⟩ | ⟨_, he⟩⟩ | ⟨hc, _⟩
    · exact absurd (by simpa [he] using hr) hn
    · exact .inr (.inr (.inl ⟨by simp [he], .inr (by simp [he]), ht⟩))
    · exact .inr (.inr (.inl ⟨by simp [he], .inl (by simp [he]), ht⟩))
    · exact .inr (.inr (.inr ⟨by simp [he], .inl ⟨ht, w, ws, hw, hi⟩⟩))
    · exact absurd (by simpa [he] using hr) hn
    · exact absurd (by simpa [he] using hr) hn
    · exact absurd hc (not_configurable_of_run hr)
  · exact absurd (by simp only [blockEffect_token _ _ hi]; split <;> simpa using hr) hn
  · exact absurd hr hn
  · exact .inr (.inr (.inr ⟨rfl, .inr ht⟩))
  · exact absurd hr hn

/-- An instruction leaves `OUTQ` as it is. -/
theorem blockEffect_outq (p : Params) (i : Instr) (b : Block) : (blockEffect p i b).outq = b.outq := by
  rcases effect_cases p i b with h | ⟨_, v, _, h⟩ | ⟨_, _, h, _⟩ | ⟨_, h⟩ | ⟨_, ⟨d, _, h⟩ | ⟨_, h⟩⟩ | ⟨_, ⟨_, h⟩ | ⟨_, _, _, h⟩ | ⟨_, _, _, h⟩ |
    ⟨_, _, h⟩ | ⟨_, _, h⟩ | ⟨_, _, h⟩ | ⟨_, _, h⟩ | ⟨_, _, h⟩⟩ <;> rw [h] <;> rfl

/-- The symbols of every step but reset join those the block has put out before. -/
theorem step_symbolsOut {s s' : State} (h : step s = .next s') (hn : ¬ resetIsNext s) :
    symbolsOut s' = symbolsOut s ++ appended s := by
  have host : ∀ t, s.host.turns.head? = some t → t ≠ .fsm → appended s = [] := by
    intro t ht hne
    apply appended_of_host
    cases hs : s.host.turns <;> simp_all [fsmIsNext]
  rcases step_cases h with ⟨b, hf, ht, rfl⟩ | ⟨w, ws, ht, _, rfl⟩ | ⟨t, ts, ht, _, _, rfl⟩ | ⟨d, q, ht, hq, rfl⟩ | ⟨ht, rfl⟩ | ⟨_, _, rfl⟩
  · have hfsm : fsmIsNext s = true := by cases hs : s.host.turns <;> simp_all [fsmIsNext]
    simp [symbolsOut, appended_of_fsmStep hfsm hf]
  · simp [symbolsOut, host _ ht (by decide), blockEffect_outq]
  · simp [symbolsOut, host _ ht (by decide), blockEffect_outq]
  · simp [symbolsOut, host _ ht (by decide), hq]
  · exact absurd ht hn
  · suffices appended s = [] by simp [symbolsOut, this]
    cases hfsm : fsmIsNext s
    · exact appended_of_host hfsm
    · cases hf : fsmStep s.params s.block with
      | some b =>
        obtain rfl : b = s.block := by
          have := (step_of_fsmStep hfsm hf).symm.trans h
          simpa using this
        simpa using appended_of_fsmStep hfsm hf
      | none =>
        unfold fsmStep at hf
        cases hm : fsmMove s.params s.block <;> simp_all [appended]

/-- The turns do not grow: a schedule without reset has none to come after a step. -/
theorem noReset_step {s s' : State} (h : step s = .next s') (hn : .reset ∉ s.host.turns) : .reset ∉ s'.host.turns := by
  have hs : s'.host.turns = s.host.turns.tail := by
    rcases step_cases h with ⟨_, _, _, rfl⟩ | ⟨_, _, _, _, rfl⟩ | ⟨_, _, _, _, _, rfl⟩ | ⟨_, _, _, _, rfl⟩ | ⟨_, rfl⟩ | ⟨_, _, rfl⟩ <;> rfl
  rw [hs]
  exact fun hm => hn (List.mem_of_mem_tail hm)

/-- A decode that ends (R77) is a run to the first state outside `RUN`: it has that state's `STATE`, `ERR` and `COUNT`, and its symbols,
where no reset loses them, are what the block has put out since. -/
theorem decodeEnd_run {k : Nat} : ∀ {s : State} {e : DecodeEnd}, decodeEnd k s = some e →
    ∃ j ≤ k, ∃ s', core.run j s = .next s' ∧ s'.block.state ≠ .run ∧
      e.state = s'.block.state ∧ e.err = s'.block.err ∧ e.count = s'.block.count ∧
      (.reset ∉ s.host.turns → symbolsOut s' = symbolsOut s ++ e.symbols) := by
  induction k with
  | zero =>
    intro s e h
    simp only [decodeEnd] at h
    split at h
    · cases h
    · next hr => cases h; exact ⟨0, le_rfl, s, rfl, hr, rfl, rfl, rfl, fun _ => by simp⟩
  | succ k ih =>
    intro s e h
    simp only [decodeEnd] at h
    split at h
    · cases hs : step s with
      | fault f => simp [hs] at h
      | refused r => simp [hs] at h
      | next s₁ =>
        simp only [hs, Option.map_eq_some_iff] at h
        obtain ⟨e₁, he, rfl⟩ := h
        obtain ⟨j, hj, s', hrun, hne, h1, h2, h3, h4⟩ := ih he
        refine ⟨j + 1, by omega, s', ?_, hne, h1, h2, h3, ?_⟩
        · have : core.step s = .next s₁ := hs
          simp only [Host.Core.run, this]; exact hrun
        · intro hn
          have hr : ¬ resetIsNext s := fun hr => hn (List.mem_of_mem_head? hr)
          rw [h4 (noReset_step hs hn), step_symbolsOut hs hr, after_symbols, List.append_assoc]
    · next hr => cases h; exact ⟨0, by omega, s, rfl, hr, rfl, rfl, rfl, fun _ => by simp⟩

end Sys2Proof.Machine
end

