-- ==== Sys2Proof/Laws/PerInstr.lean ====
section
/-! SUPPORT. Laws/PerInstr.lean: laws about each instruction as syntax, one lemma per constructor.
`EncodedWord`: what the encoder gives for a well-formed instruction stands where R49 and R50 put it: a command's word in a row of the opcode map,
an illegal word in none, IN_BYTE with bit 8 clear and IN_EOS with bit 8 set. -/

namespace Sys2Proof.Laws.EncodedWord

/-- The encoding of `i` is a transfer of `i`'s row (R49, R50). -/
def Statement (i : Instr) : Prop :=
  i.wellFormed = true →
    match encode i with
    | .command w => (isCommandWord w = true ↔ ∀ v, i ≠ .illegal v)
    | .token t => (t[8] = true ↔ i = .inEos) ∧ (t[8] = false ↔ ∃ d, i = .inByte d)

/-- The word stands in a row, and the instruction is not the illegal class. -/
theorem of_row {i : Instr} {w : CommandWord} {r : OpcodeRow} (hr : r ∈ opcodeMap) (h : r.takes w = true)
    (hi : ∀ v, i ≠ .illegal v) : isCommandWord w = true ↔ ∀ v, i ≠ .illegal v :=
  ⟨fun _ => hi, fun _ => isCommandWord_of_row hr h⟩

theorem nop : Statement .nop := fun _ =>
  of_row (r := { mnemonic := "NOP", pattern := 0x00000000, mask := 0xFFFFFFFF }) (by decide) (by decide) (by simp)

theorem ctClear : Statement .ctClear := fun _ =>
  of_row (r := { mnemonic := "CT_CLEAR", pattern := 0x01000000, mask := 0xFFFFFFFF }) (by decide) (by decide) (by simp)

theorem ctPush (bits : BitString) : Statement (.ctPush bits) := by
  intro h
  simp only [Instr.wellFormed, Bool.and_eq_true, decide_eq_true_eq] at h
  exact of_row (pushRow_mem (by omega)) (encodePush_row bits h.1 h.2) (by simp)

theorem ctCommit (sym : Byte) : Statement (.ctCommit sym) := by
  intro _
  refine of_row (r := { mnemonic := "CT_COMMIT", pattern := 0x03000000, mask := 0xFFFFFF00 }) (by decide) ?_ (by simp)
  simp only [OpcodeRow.takes, beq_iff_eq]
  rw [show (0xFFFFFF00 : BitVec 32) = 0xFFFFFF#24 ++ 0#8 by decide, append_and_append]
  simp

theorem setTotalLo (imm : BitVec 16) : Statement (.setTotalLo imm) := by
  intro _
  refine of_row (r := { mnemonic := "SET_TOTAL_LO", pattern := 0x04000000, mask := 0xFFFF0000 }) (by decide) ?_ (by simp)
  simp only [OpcodeRow.takes, beq_iff_eq]
  rw [show (0xFFFF0000 : BitVec 32) = 0xFFFF#16 ++ 0#16 by decide, append_and_append]
  simp

theorem setTotalHi (imm : BitVec 16) : Statement (.setTotalHi imm) := by
  intro _
  refine of_row (r := { mnemonic := "SET_TOTAL_HI", pattern := 0x05000000, mask := 0xFFFF0000 }) (by decide) ?_ (by simp)
  simp only [OpcodeRow.takes, beq_iff_eq]
  rw [show (0xFFFF0000 : BitVec 32) = 0xFFFF#16 ++ 0#16 by decide, append_and_append]
  simp

theorem start : Statement .start := fun _ =>
  of_row (r := { mnemonic := "START", pattern := 0x06000000, mask := 0xFFFFFFFF }) (by decide) (by decide) (by simp)

theorem abort : Statement .abort := fun _ =>
  of_row (r := { mnemonic := "ABORT", pattern := 0x07000000, mask := 0xFFFFFFFF }) (by decide) (by decide) (by simp)

theorem inByte (data : Byte) : Statement (.inByte data) := by
  intro _
  have h : (byteToken data)[8] = false := by unfold byteToken; rw [BitVec.getElem_append]; simp
  simp [encode, h]

theorem inEos : Statement .inEos := by
  intro _; simp [encode, eosToken]

theorem illegal (w : CommandWord) : Statement (.illegal w) := by
  intro h
  simp only [Instr.wellFormed, Bool.not_eq_true'] at h
  simp [encode, h]

end Sys2Proof.Laws.EncodedWord
end

