-- ==== Sys2Proof/Laws/Serve.lean ====
section
/-! SUPPORT. Laws/Serve.lean: the bits of the reader, in the order the FSM takes them (R22, R31), and the steps of a served decode. -/

namespace Sys2Proof.Machine

/-! ### The reader's bits -/

@[simp] theorem byteBits_length (d : Byte) : (byteBits d).length = 8 := by simp [byteBits]

/-- The first bit of a byte is bit 7, and the rest are those of the byte shifted left (R31, R69). -/
theorem byteBits_eq (d : Byte) : byteBits d = d[7] :: (byteBits (d <<< 1)).take 7 := by
  revert d; decide

theorem bufferedBits_empty {b : Block} (h : b.bitcnt = 0) : bufferedBits b = [] := by
  simp [bufferedBits, h]

/-- The next bit the FSM takes is the first of the buffered bits, and consuming it leaves the others. -/
theorem bufferedBits_next {b : Block} (h : b.bitcnt ≠ 0) (h8 : b.bitcnt.toNat ≤ 8) :
    bufferedBits b = nextBit b :: bufferedBits (dropBit b) := by
  have hpos : 0 < b.bitcnt.toNat := Nat.pos_of_ne_zero fun h0 => h (BitVec.eq_of_toNat_eq h0)
  have hsub : (b.bitcnt - 1).toNat = b.bitcnt.toNat - 1 := by
    revert h h8; generalize b.bitcnt = n; revert n; decide
  simp only [bufferedBits, dropBit_bitbuf, dropBit_bitcnt, nextBit, hsub]
  conv_lhs => rw [byteBits_eq b.bitbuf]
  obtain ⟨m, hm⟩ : ∃ m, b.bitcnt.toNat = m + 1 := ⟨b.bitcnt.toNat - 1, by omega⟩
  rw [hm, List.take_succ_cons, List.take_take, Nat.add_sub_cancel, Nat.min_eq_left (by omega)]

/-- A byte that has just been accepted has all its bits buffered (R80). -/
theorem bufferedBits_load (d : Byte) (b : Block) : bufferedBits (loadByte d b) = byteBits d := by
  simp [bufferedBits, List.take_of_length_le]

theorem byteToken_eos (d : Byte) : (byteToken d)[8] = false := by
  revert d; decide

theorem byteToken_data (d : Byte) : (byteToken d).extractLsb' 0 8 = d := by
  revert d; decide

theorem tokenBits_byte (d : Byte) (ts : List Token) : tokenBits (byteToken d :: ts) = byteBits d ++ tokenBits ts := by
  rw [tokenBits, byteToken_eos, byteToken_data]; rfl

theorem tokenBits_bytes (ds : List Byte) (ts : List Token) :
    tokenBits (ds.map byteToken ++ ts) = ds.flatMap byteBits ++ tokenBits ts := by
  induction ds with
  | nil => rfl
  | cons d ds ih => rw [List.map_cons, List.cons_append, tokenBits_byte, ih, List.flatMap_cons, List.append_assoc]

@[simp] theorem tokenBits_eos (ts : List Token) : tokenBits (eosToken :: ts) = [] := by
  rw [tokenBits, if_pos (by decide)]

/-! ### Served steps -/

/-- With a symbol waiting, the host pops it (R106). -/
theorem servedStep_pop {s : State} {d : Byte} {q : List Byte} (h : s.block.outq = d :: q) :
    servedStep s = .next { s with block := { s.block with outq := q },
                                  host := { s.host with turns := [], received := s.host.received ++ [d] } } := by
  simp [servedStep, servedTurn, outValid, h, step, stepOnce, takeTurn, popTurn, popOutput, State.withTurns]

/-- With the block waiting for a token, the host offers one and it is accepted (R105). -/
theorem servedStep_token {s : State} {t : Token} {ts : List Token} (hq : s.block.outq = []) (hr : inReady s.block = true)
    (ht : s.host.tokens = t :: ts) :
    servedStep s = .next { s with block := if t[8] then seeEos s.block else loadByte (t.extractLsb' 0 8) s.block,
                                  host := { s.host with turns := [], tokens := ts } } := by
  simp only [servedStep, servedTurn, outValid, hq, hr, step, stepOnce, takeTurn, tokenTurn, State.withTurns, ht, exec_eq,
    blockEffect_token _ _ hr, List.isEmpty_nil, Bool.not_true, Bool.false_eq_true, if_false, if_true]

/-- With nothing for the host to do, the FSM takes its step (R66). -/
theorem servedStep_fsm {s : State} {b : Block} (hq : s.block.outq = []) (hf : fsmStep s.params s.block = some b) :
    servedStep s = .next { s with block := b, host := { s.host with turns := [] } } := by
  have hr : inReady s.block = false := by
    by_contra h
    rw [fsmStep_wait (by simpa using h)] at hf
    cases hf
  simp [servedStep, servedTurn, outValid, hq, hr, step, stepOnce, takeTurn, fsmTurn, State.withTurns, hf, State.onBlock]

theorem servedRun_succ {s s' : State} (k : Nat) (h : servedStep s = .next s') :
    servedRun (k + 1) s = servedRun k s' := by
  simp only [servedRun, h]

/-- Two served runs, one after the other. -/
theorem servedRun_add {s s' : State} {j : Nat} (k : Nat) (h : servedRun j s = .next s') :
    servedRun (j + k) s = servedRun k s' := by
  induction j generalizing s with
  | zero => simp only [servedRun, Host.Outcome.next.injEq] at h; rw [Nat.zero_add, h]
  | succ j ih =>
    rw [Nat.succ_add_eq_add_succ, Nat.add_succ]
    simp only [servedRun] at h ⊢
    cases hs : servedStep s with
    | next s1 => rw [hs] at h; exact ih h
    | fault f => rw [hs] at h; cases h
    | refused f => rw [hs] at h; cases h

/-! ### Issued commands -/

theorem issue_cons (i : Instr) (is : List Instr) (s : State) :
    issue (i :: is) s = issue is { s with block := blockEffect s.params i s.block } := by
  simp only [issue, exec_eq]

theorem issue_append {is : List Instr} {s s' : State} (js : List Instr) (h : issue is s = .next s') :
    issue (is ++ js) s = issue js s' := by
  induction is generalizing s with
  | nil => simp only [issue, Host.Outcome.next.injEq] at h; rw [List.nil_append, h]
  | cons i is ih => rw [issue_cons] at h; rw [List.cons_append, issue_cons]; exact ih h

end Sys2Proof.Machine
end

