-- ==== Sys2Proof/Laws/Tree.lean ====
section
/-! SUPPORT. Laws/Tree.lean: the laws of the tree view (R37), of the prefix-code check (R38) and of the source's tree. -/

namespace Sys2Proof.Machine

/-! ### Nodes and symbols -/

theorem isNode_iff (t : Table) (p : BitString) :
    isNode t p = true ↔ p = [] ∨ ∃ e ∈ validCodes t, p <+: e.2 := by
  simp [isNode, List.isEmpty_iff]

@[simp] theorem isNode_root (t : Table) : isNode t [] = true := by simp [isNode]

theorem hasChild_iff (t : Table) (p : BitString) :
    hasChild t p = true ↔ ∃ e ∈ validCodes t, p <+: e.2 ∧ p ≠ e.2 := by
  simp [hasChild]

theorem mem_symbolsAt {t : Table} {p : BitString} {d : Byte} : d ∈ symbolsAt t p ↔ (d, p) ∈ validCodes t := by
  simp [symbolsAt]

/-- No valid code is `p`: then `matchSym(p)` is none (R37). -/
theorem matchSym_none {t : Table} {p : BitString} (h : ∀ e ∈ validCodes t, e.2 ≠ p) : matchSym t p = none := by
  have : symbolsAt t p = [] := by
    simp only [symbolsAt, List.filterMap_eq_nil_iff]
    intro e he
    simp [h e he]
  simp [matchSym, this]

/-! ### The prefix-code check -/

theorem apart_iff (l : List (Byte × BitString)) :
    apart l = true ↔ l.Pairwise fun a b => ¬ a.2 <+: b.2 ∧ ¬ b.2 <+: a.2 := by
  induction l with
  | nil => simp [apart]
  | cons e l ih =>
    simp only [apart, Bool.and_eq_true, ih, List.pairwise_cons, List.all_eq_true, Bool.not_eq_true',
      ← Bool.not_eq_true, List.isPrefixOf_iff_prefix]

/-- In a conflict-free table no valid code is a prefix of another one (R38). -/
theorem prefix_unique {t : Table} (h : conflictFree t = true) {a b : Byte × BitString}
    (ha : a ∈ validCodes t) (hb : b ∈ validCodes t) (hp : a.2 <+: b.2) : a = b := by
  have h := (apart_iff _).1 h
  revert h ha hb
  induction validCodes t with
  | nil => simp
  | cons e l ih =>
    intro ha hb h
    rw [List.pairwise_cons] at h
    rcases List.mem_cons.1 ha with rfl | ha' <;> rcases List.mem_cons.1 hb with rfl | hb'
    · rfl
    · exact absurd hp (h.1 b hb').1
    · exact absurd hp (h.1 a ha').2
    · exact ih ha' hb' h.2

theorem symbolsAt_of_mem {t : Table} (h : conflictFree t = true) {d : Byte} {p : BitString}
    (hd : (d, p) ∈ validCodes t) : symbolsAt t p = [d] := by
  unfold conflictFree at h
  unfold symbolsAt
  generalize validCodes t = l at *
  induction l with
  | nil => simp at hd
  | cons e l ih =>
    have h' := (apart_iff _).1 h
    rw [List.pairwise_cons] at h'
    rcases List.mem_cons.1 hd with rfl | hm
    · have : ∀ e ∈ l, e.2 ≠ p := fun e he heq => (h'.1 e he).1 (by rw [heq])
      have hn : (l.filterMap fun e => if e.2 = p then some e.1 else none) = [] := by
        rw [List.filterMap_eq_nil_iff]
        intro e he
        simp [this e he]
      rw [List.filterMap_cons_some (b := d) (by simp), hn]
    · have : e.2 ≠ p := fun heq => (h'.1 _ hm).1 (by rw [heq])
      rw [List.filterMap_cons_none (by simp [this])]
      exact ih ((apart_iff l).2 h'.2) hm

/-- On a conflict-free table `matchSym(p)` is the symbol whose valid code is `p` (R37). -/
theorem matchSym_some_iff {t : Table} (h : conflictFree t = true) {d : Byte} {p : BitString} :
    matchSym t p = some d ↔ (d, p) ∈ validCodes t := by
  constructor
  · intro hm
    cases hs : symbolsAt t p with
    | nil => simp [matchSym, hs] at hm
    | cons a l =>
      have ha : (a, p) ∈ validCodes t := mem_symbolsAt.1 (by simp [hs])
      rw [symbolsAt_of_mem h ha] at hs
      simp only [matchSym, symbolsAt_of_mem h ha, Option.some.injEq] at hm
      exact hm ▸ ha
  · intro hd
    simp [matchSym, symbolsAt_of_mem h hd]

theorem matchSym_none_iff {t : Table} (h : conflictFree t = true) {p : BitString} :
    matchSym t p = none ↔ ∀ e ∈ validCodes t, e.2 ≠ p := by
  constructor
  · rintro hm ⟨d, c⟩ he rfl
    rw [(matchSym_some_iff h).2 he] at hm
    cases hm
  · exact matchSym_none

/-! ### The source's tree -/

@[simp] theorem descend_nil (t : Tree) : t.descend [] = t := by cases t <;> rfl
@[simp] theorem descend_absent (p : BitString) : Tree.absent.descend p = .absent := by
  induction p with
  | nil => rfl
  | cons b p ih => simpa [Tree.descend, Tree.child] using ih
theorem descend_cons (t : Tree) (b : Bool) (p : BitString) : t.descend (b :: p) = (t.child b).descend p := by
  cases t <;> rfl

theorem descend_append (t : Tree) (p q : BitString) : t.descend (p ++ q) = (t.descend p).descend q := by
  induction p generalizing t with
  | nil => simp
  | cons b p ih => simp [descend_cons, ih]

theorem child_insert (s : Byte) (b b' : Bool) (c : BitString) (t : Tree) :
    (Tree.insert s (b :: c) t).child b' = if b' = b then Tree.insert s c (t.child b) else t.child b' := by
  cases t <;> cases b <;> cases b' <;> simp [Tree.insert, Tree.child]

theorem insert_ne_absent (s : Byte) (c : BitString) (t : Tree) : Tree.insert s c t ≠ .absent := by
  cases c <;> cases t <;> simp [Tree.insert] <;> split <;> simp

/-- An insertion adds exactly the nodes on the path of its code (R37). -/
theorem descend_insert_ne_absent (s : Byte) (c p : BitString) (t : Tree) :
    (Tree.insert s c t).descend p ≠ .absent ↔ t.descend p ≠ .absent ∨ p <+: c := by
  induction c generalizing t p with
  | nil =>
    cases p with
    | nil => simp [insert_ne_absent]
    | cons b p => cases t <;> simp [descend_cons, Tree.insert, Tree.child]
  | cons b c ih =>
    cases p with
    | nil => simp [insert_ne_absent]
    | cons b' p =>
      simp only [descend_cons, child_insert, List.cons_prefix_cons]
      split
      · next h => subst h; simp [ih]
      · next h => simp [h]

/-- An insertion sets the symbol of its code's node and no other (R37). -/
theorem symbol_descend_insert (s : Byte) (c p : BitString) (t : Tree) :
    ((Tree.insert s c t).descend p).symbol = if p = c then some s else (t.descend p).symbol := by
  induction c generalizing t p with
  | nil =>
    cases p with
    | nil => cases t <;> simp [Tree.insert, Tree.symbol]
    | cons b p => cases t <;> simp [descend_cons, Tree.insert, Tree.child]
  | cons b c ih =>
    cases p with
    | nil => cases t <;> cases b <;> simp [Tree.insert, Tree.symbol]
    | cons b' p =>
      simp only [descend_cons, child_insert]
      split
      · next h => subst h; simp [ih]
      · next h => simp [h]

/-- Two trees with the same nodes and the same symbols are equal. -/
theorem tree_ext (t u : Tree)
    (h : ∀ p, (t.descend p ≠ .absent ↔ u.descend p ≠ .absent) ∧ (t.descend p).symbol = (u.descend p).symbol) :
    t = u := by
  induction t generalizing u with
  | absent =>
    cases u with
    | absent => rfl
    | node y l' r' => simpa using (h []).1
  | node x l r ihl ihr =>
    cases u with
    | absent => simpa using (h []).1
    | node y l' r' =>
      have hx : x = y := by simpa [Tree.symbol] using (h []).2
      have hl : l = l' := ihl l' fun p => by simpa [descend_cons, Tree.child] using h (false :: p)
      have hr : r = r' := ihr r' fun p => by simpa [descend_cons, Tree.child] using h (true :: p)
      rw [hx, hl, hr]

end Sys2Proof.Machine
end

