-- ==== Sys2Proof/Tests/Slice0.lean ====
section
/-! SUPPORT. Tests/Slice0.lean: checks against the words and vectors of 95_test_vectors.md (each named by its id), the smoke test of WellFormed,
and for every statement with hypotheses a concrete input that meets them (`witness_<its name>`). -/

open Sys2Proof Sys2Proof.Machine

namespace Sys2Proof.Tests

/-! ### Small states -/

/-- The table T_a of 95_test_vectors.md: A = "0", C = "10", B = "11". -/
def tableA : Table :=
  [(65, { v := true, len := 1, code := [false] }), (66, { v := true, len := 2, code := [true, true] }),
   (67, { v := true, len := 2, code := [true, false] })]

/-- T_a loaded, TOTAL = 6. -/
def idleA : Block := { Block.reset with ct := tableA, total := 6 }
/-- Just after START (V-P2): the FSM is in WAIT. -/
def waitA : Block := { idleA with state := .run }
/-- The example of R69. -/
def bitA : Block := { waitA with count := 5, cur := [true], bitbuf := 0x00, bitcnt := 8 }
/-- The example of R68. -/
def emitA : Block := { waitA with count := 5, cur := [true, false] }
/-- The same with the queue full. -/
def fullA : Block := { emitA with outq := [66] }
/-- The example of R70. -/
def eosA : Block := { waitA with count := 5, cur := [true], eosf := true }
/-- The start of V-C13. -/
def doneA : Block := { idleA with state := .done, count := 6, bitcnt := 7 }
/-- The start of V-C9 and V-C10. -/
def errorA : Block := { idleA with state := .error, err := .illegalCmd, count := 5 }

/-- A block between a quiet host and the reference parameters. -/
def alone (b : Block) : State := { State.reset with block := b }

/-- The block after a step that goes on. -/
def blockAfter : Result → Option Block
  | .next s => some s.block
  | .fault _ => none
  | .refused _ => none

/-- The outcome is this next state. -/
def goesTo (r : Result) (s : State) : Bool :=
  match r with
  | .next t => t == s
  | .fault _ => false
  | .refused _ => false

theorem eq_of_goesTo {r : Result} {s : State} (h : goesTo r s = true) : r = .next s := by
  cases r <;> simp_all [goesTo]

/-- The outcome is this fault. -/
def stopsWith (r : Result) (f : Fault) : Bool :=
  match r with
  | .next _ => false
  | .fault g => g == f
  | .refused _ => false

/-! ### WellFormed refuses ill-formed terms -/

theorem test_wellFormed_push_of_no_bits_refused : (Instr.ctPush []).wellFormed = false := by decide
theorem test_wellFormed_push_of_17_bits_refused : (Instr.ctPush (List.replicate 17 true)).wellFormed = false := by decide
theorem test_wellFormed_illegal_of_a_command_word_refused :
    (Instr.illegal 0x01000000).wellFormed = false ∧ (Instr.illegal 0x020F0001).wellFormed = false ∧
    (Instr.illegal 0x03000043).wellFormed = false := by decide
theorem test_wellFormed_boundaries_accepted :
    (Instr.ctPush [true]).wellFormed = true ∧ (Instr.ctPush (List.replicate 16 true)).wellFormed = true ∧
    (Instr.illegal 0x02004000).wellFormed = true ∧ (Instr.illegal 0xFF000000).wellFormed = true := by decide

/-- No two rows of R49 take one word. -/
theorem test_opcodeMap_rows_do_not_overlap :
    opcodeMap.Pairwise fun r q => r.pattern &&& (r.mask &&& q.mask) ≠ q.pattern &&& (r.mask &&& q.mask) := by decide

/-! ### Decoding, each word written out from the formats of R44 -/

theorem test_decode_nop : decodeTableWord 32 0b00000000000000000000000000000000 = some .nop := by decide
theorem test_decode_ctClear : decodeTableWord 32 0b00000001000000000000000000000000 = some .ctClear := by decide
/-- V-E5: opcode 00000010, zeros 0000, K 0001, BITS 1000000000000000. -/
theorem test_decode_ctPush : decodeTableWord 32 0b00000010000000011000000000000000 = some (.ctPush [true, false]) := by decide
/-- V-E9: K 1111, BITS 0000000000000001. -/
theorem test_decode_ctPush_16_bits :
    decodeTableWord 32 0b00000010000011110000000000000001 = some (.ctPush (List.replicate 15 false ++ [true])) := by decide
/-- V-T3's word: opcode 00000011, zeros, SYM 01000011. -/
theorem test_decode_ctCommit : decodeTableWord 32 0b00000011000000000000000001000011 = some (.ctCommit 67) := by decide
theorem test_decode_setTotalLo : decodeTableWord 32 0b00000100000000000000000000000110 = some (.setTotalLo 6) := by decide
/-- V-E13. -/
theorem test_decode_setTotalHi : decodeTableWord 32 0b00000101000000001111111111111111 = some (.setTotalHi 0xFFFF) := by decide
theorem test_decode_start : decodeTableWord 32 0b00000110000000000000000000000000 = some .start := by decide
theorem test_decode_abort : decodeTableWord 32 0b00000111000000000000000000000000 = some .abort := by decide
/-- V-E17. -/
theorem test_decode_inByte : decodeTableWord 16 0b011111111 = some (.inByte 0xFF) := by decide
/-- V-E16. -/
theorem test_decode_inEos : decodeTableWord 16 0b100000000 = some .inEos ∧ decodeTableWord 9 0b111111111 = some .inEos := by decide
/-- V-E2, V-E7, V-E8, V-E11, V-E12, V-E14, V-E15. -/
theorem test_decode_illegal :
    [0x00000001, 0x02004000, 0x02100000, 0x03000100, 0x04010000, 0x06000001, 0x08000000, 0xFF000000].all
      (fun w => decodeTableWord 32 w == some (.illegal (BitVec.ofNat 32 w))) = true := by decide
/-- Patterns that are no transfer of any port. -/
theorem test_decode_rejects_other_widths :
    decodeTableWord 8 0 = none ∧ decodeTableWord 16 0b1000000000 = none ∧ decodeTableWord 32 0x100000000 = none := by decide
/-- The words of the load of T_a, as 95_test_vectors.md writes them. -/
theorem test_encode_load_of_tableA :
    (loadTable [(65, [false]), (66, [true, true]), (67, [true, false])]).map encode =
      [.command 0x01000000, .command 0x02000000, .command 0x03000041, .command 0x0201C000, .command 0x03000042,
       .command 0x02018000, .command 0x03000043] := by decide

/-! ### Commands -/

/-- V-C12. -/
theorem test_nop_in_run :
    goesTo (exec .nop (alone { waitA with count := 3 }))
      (alone { waitA with count := 3 }) = true := by decide
/-- V-T1. -/
theorem test_ctClear :
    goesTo (exec .ctClear (alone { idleA with stg := [true], stgLen := 1 }))
      (alone { Block.reset with total := 6 }) = true := by decide
/-- V-T9. -/
theorem test_ctClear_in_run_is_busy :
    goesTo (exec .ctClear (alone waitA))
      (alone { waitA with state := .error, err := .busy }) = true := by decide
/-- V-T2. -/
theorem test_ctPush_appends :
    goesTo (exec (.ctPush [true, false]) (alone { Block.reset with stg := [true], stgLen := 1 }))
      (alone { Block.reset with stg := [true, true, false], stgLen := 3 }) = true := by decide
/-- V-T8 (and V-T7, one bit earlier). -/
theorem test_ctPush_too_long :
    (blockAfter (exec (.ctPush [true]) (alone { Block.reset with stg := List.replicate 255 true, stgLen := 255 }))).map
      (fun b => (b.state, b.err, b.stgLen)) = some (.error, .codeTooLong, 255) ∧
    (blockAfter (exec (.ctPush [true]) (alone { Block.reset with stg := List.replicate 254 true, stgLen := 254 }))).map
      (fun b => (b.state, b.err, b.stgLen)) = some (.idle, .noError, 255) := by decide
/-- V-T3. -/
theorem test_ctCommit :
    goesTo (exec (.ctCommit 67) (alone { Block.reset with stg := [true, false], stgLen := 2 }))
      (alone { Block.reset with ct := [(67, { v := true, len := 2, code := [true, false] })] }) = true := by decide
/-- V-T11, on a table that lists later symbols: the last write wins, and DONE stays. -/
theorem test_ctCommit_replaces_in_done :
    (blockAfter (exec (.ctCommit 65) (alone { doneA with stg := [true, true, false], stgLen := 3 }))).map
      (fun b => (b.state, b.ct.length, Table.read b.ct 65, Table.read b.ct 66))
      = some (.done, 3, { v := true, len := 3, code := [true, true, false] }, { v := true, len := 2, code := [true, true] }) := by
  decide
/-- V-C1. -/
theorem test_setTotalLo :
    goesTo (exec (.setTotalLo 6) (alone { Block.reset with total := 0x00010000 }))
      (alone { Block.reset with total := 0x00010006 }) = true := by decide
/-- V-C2. -/
theorem test_setTotalHi :
    goesTo (exec (.setTotalHi 1) (alone { Block.reset with total := 6 }))
      (alone { Block.reset with total := 0x00010006 }) = true := by decide
/-- V-C13. -/
theorem test_start_from_done :
    goesTo (exec .start (alone doneA))
      (alone { idleA with state := .run }) = true := by decide
/-- V-C4, V-C5 and V-C6. -/
theorem test_start_refuses_conflicts :
    [([false], [false]), ([false], [false, true]), ([], [true])].all (fun c =>
      blockAfter (exec .start (alone { Block.reset with
        ct := [(65, { v := true, len := BitVec.ofNat 8 c.1.length, code := c.1 }), (66, { v := true, len := BitVec.ofNat 8 c.2.length, code := c.2 })] }))
      == some { Block.reset with
        ct := [(65, { v := true, len := BitVec.ofNat 8 c.1.length, code := c.1 }), (66, { v := true, len := BitVec.ofNat 8 c.2.length, code := c.2 })],
        state := .error, err := .tableConflict }) = true := by decide
/-- V-C10. -/
theorem test_abort_leaves_error :
    goesTo (exec .abort (alone errorA))
      (alone { idleA with count := 5 }) = true := by decide
/-- V-C11. -/
theorem test_abort_in_run :
    goesTo (exec .abort (alone { waitA with count := 3, outq := [65] }))
      (alone { idleA with count := 3, outq := [65] }) = true := by decide
/-- V-X1. -/
theorem test_illegal_in_run :
    goesTo (exec (.illegal 0x08000000) (alone waitA))
      (alone { waitA with state := .error, err := .illegalCmd }) = true := by decide
/-- V-X3 and V-X4. -/
theorem test_illegal_in_error_ignored :
    goesTo (exec (decodeCommand 0x07000001) (alone { errorA with err := .struct }))
      (alone { errorA with err := .struct }) = true := by decide

/-! ### Ports -/

/-- V-P1: at reset a placed token is offered and not accepted; it stays with the host. -/
theorem test_inByte_at_reset_not_accepted :
    goesTo (step (State.reset.withFetchWord 16 0x01F))
      ({ State.reset with host := { cmds := [], tokens := [0x01F], turns := [], received := [] } }) = true := by decide
/-- The example of R80. -/
theorem test_inByte_accepted :
    goesTo (step ((alone waitA).withFetchWord 16 0x01F))
      (alone { waitA with bitbuf := 0x1F, bitcnt := 8 }) = true := by decide
/-- The example of R81. -/
theorem test_inEos_accepted :
    goesTo (exec .inEos (alone { waitA with count := 5 }))
      (alone { waitA with count := 5, eosf := true }) = true := by decide
/-- V-P3 and V-P4. -/
theorem test_inReady_only_when_a_bit_is_needed :
    inReady waitA = true ∧ inReady { waitA with bitcnt := 3 } = false ∧
    inReady { waitA with ct := [(90, { v := true, len := 0, code := [] })] } = false := by decide
/-- V-P6. -/
theorem test_pop_in_error :
    goesTo (step ({ alone { errorA with outq := [66] } with host := { HostSide.quiet with turns := [.pop] } }))
      ({ alone errorA with host := { HostSide.quiet with received := [66] } }) = true := by decide
/-- V-R1. -/
theorem test_reset_in_run :
    goesTo (step ({ alone fullA with host := { HostSide.quiet with turns := [.reset] } }))
      State.reset = true := by decide
/-- An instruction placed at reset runs at once (R57: NOP leaves the state as it is). -/
theorem test_nop_at_reset : goesTo (step (State.reset.withFetchWord 32 0x00000000)) State.reset = true := by decide

/-! ### FSM steps -/

/-- V-C3: the step after START with TOTAL = 0. -/
theorem test_fsm_done :
    goesTo (step (alone { Block.reset with state := .run }))
      (alone { Block.reset with state := .done }) = true := by decide
/-- The example of R68. -/
theorem test_fsm_emit :
    goesTo (step (alone emitA))
      (alone { waitA with count := 6, outq := [67] }) = true := by decide
/-- R68 and V-F12: the queue is full. -/
theorem test_fsm_emit_holds : stopsWith (step (alone fullA)) .stuck = true := by decide
/-- The example of R69. -/
theorem test_fsm_bit :
    goesTo (step (alone bitA))
      (alone { bitA with cur := [true, false], bitcnt := 7 }) = true := by decide
/-- V-F6: the first bit on an empty table. -/
theorem test_fsm_struct :
    goesTo (step (alone { Block.reset with state := .run, total := 1, bitcnt := 8 }))
      (alone { Block.reset with state := .error, err := .struct, total := 1, bitcnt := 7 }) = true := by decide
/-- The example of R70. -/
theorem test_fsm_truncated :
    goesTo (step (alone eosA))
      (alone { eosA with state := .error, err := .truncated }) = true := by decide
/-- R71: WAIT. -/
theorem test_fsm_waits : stopsWith (step (alone waitA)) .stuck = true := by decide

/-! ### Bit order, payload and the source's loop -/

/-- W5. -/
theorem test_byteBits : byteBits 0x1F = [false, false, false, true, true, true, true, true] := by decide
/-- W1: the payload of AAABBC under T_a. -/
theorem test_payload : payload tableA [65, 65, 65, 66, 66, 67] = [0x1F, 0x00] := by decide
/-- V-F2, as the source's loop decodes it: seven bits stay unread. -/
theorem test_source_loop :
    sourceDecode tableA ([0x1F, 0x00].flatMap byteBits) 6
      = { emitted := [65, 65, 65, 66, 66, 67], ending := .complete, unread := List.replicate 7 false } := by decide
/-- V-F3. -/
theorem test_source_loop_truncated :
    sourceDecode tableA (byteBits 0x1F) 6 = { emitted := [65, 65, 65, 66, 66], ending := .truncated, unread := [] } := by decide
/-- W1's file, as the host hands it over (R103), and one with a symbol above 255. -/
theorem test_file_transfers :
    (fileTransfers { totalSymbolCount := 1, lines := [(65, ['0'])], bytes := [0] }).map
      (fun f => (f.1.map encode, f.2.map encode))
      = some ([.command 0x01000000, .command 0x02000000, .command 0x03000041, .command 0x04000001, .command 0x05000000,
               .command 0x06000000], [.token 0x000, .token 0x100]) ∧
    fileTransfers { totalSymbolCount := 1, lines := [(256, ['0'])], bytes := [] } = none := by decide
/-- A line of P1. -/
theorem test_assemble_ctEntry : assembleLine "CT_ENTRY 66, \"11\"".toList = some [.command 0x0201C000, .command 0x03000042] := by decide

/-- R77: what a second decode produced is its own symbols alone, whatever was received or queued before its START (as in P3). -/
theorem test_startedDecode_after_an_earlier_decode :
    startedDecode 3 { alone { idleA with ct := [(90, { v := true, len := 0, code := [] })], total := 1, outq := [66] } with
      host := { HostSide.quiet with received := [65], turns := [.pop, .fsm, .fsm] } }
      = some { symbols := [90], state := .done, err := .noError, count := 1 } := by decide
/-- R77: ABORT ends a decode in IDLE; a decode that waits has no end. -/
theorem test_decodeEnd_by_abort :
    decodeEnd 1 ((alone { waitA with count := 3 }).withFetchWord 32 0x07000000)
      = some { symbols := [], state := .idle, err := .noError, count := 3 } ∧
    decodeEnd 1 (alone waitA) = none := by decide

/-! ### The hypotheses of the statements can be met -/

theorem witness_EncodeThenDecodeIsIdentity :
    (Instr.ctPush [false]).wellFormed = true ∧ (Instr.ctPush (List.replicate 16 true)).wellFormed = true ∧
    (Instr.illegal 0x00000001).wellFormed = true ∧ (Instr.inEos).wellFormed = true := by decide
theorem witness_DecodeThenEncodeGivesTheWordBack : (0x0FF : Token)[8] = false ∧ (0x1FF : Token)[8] = true := by decide
theorem witness_DecodingFollowsTheOpcodeMap :
    (0x0200_8000 : CommandWord) &&& (0xFFFF0000#32 ||| BitVec.ofNat 32 (2 ^ (15 - 0) - 1))
      = 0x02000000#32 ||| (BitVec.ofNat 32 0 <<< 16) ∧
    (0x020F_0001 : CommandWord) &&& (0xFFFF0000#32 ||| BitVec.ofNat 32 (2 ^ (15 - 15) - 1))
      = 0x02000000#32 ||| (BitVec.ofNat 32 15 <<< 16) ∧
    (0x0300_00FF : CommandWord) &&& 0xFFFFFF00 = 0x03000000 ∧ (0x0400_FFFF : CommandWord) &&& 0xFFFF0000 = 0x04000000 ∧
    (0x0500_FFFF : CommandWord) &&& 0xFFFF0000 = 0x05000000 ∧
    isCommandWord 0x02004000 = false ∧ isCommandWord 0x08000000 = false := by decide
theorem witness_ReservedBitsAndUnassignedOpcodesAreIllegal :
    ((0x00000001 : CommandWord).extractLsb' 24 8 = 0 ∧ (0x00000001 : CommandWord).extractLsb' 0 24 ≠ 0) ∧
    ((0x07800000 : CommandWord).extractLsb' 24 8 = 7 ∧ (0x07800000 : CommandWord).extractLsb' 0 24 ≠ 0) ∧
    ((0x02100000 : CommandWord).extractLsb' 24 8 = 2 ∧ (0x02100000 : CommandWord).extractLsb' 20 4 ≠ 0) ∧
    ((0x02004000 : CommandWord).extractLsb' 24 8 = 2 ∧
      (0x02004000 : CommandWord).toNat % 2 ^ (15 - ((0x02004000 : CommandWord).extractLsb' 16 4).toNat) ≠ 0) ∧
    ((0x03000100 : CommandWord).extractLsb' 24 8 = 3 ∧ (0x03000100 : CommandWord).extractLsb' 8 16 ≠ 0) ∧
    ((0x04010000 : CommandWord).extractLsb' 24 8 = 4 ∧ (0x04010000 : CommandWord).extractLsb' 16 8 ≠ 0) ∧
    8 ≤ ((0x08000000 : CommandWord).extractLsb' 24 8).toNat := by decide
theorem witness_TokenBitEightIsTheSentinel : (0x0FF : Token)[8] = false ∧ (0x100 : Token)[8] = true := by decide
theorem witness_CommandTurnRunsTheNextWord :
    ((alone doneA).withFetchWord 32 0x06000000).host.turns = .command :: [] ∧
    ((alone doneA).withFetchWord 32 0x06000000).host.cmds = 0x06000000 :: [] := by decide
theorem witness_TokenTurnOffersTheNextToken :
    ((alone waitA).withFetchWord 16 0x01F).host.turns = .token :: [] ∧
    ((alone waitA).withFetchWord 16 0x01F).host.tokens = 0x01F :: [] ∧
    inReady ((alone waitA).withFetchWord 16 0x01F).block = true ∧
    inReady ((alone idleA).withFetchWord 16 0x01F).block = false := by decide
theorem witness_PlacedInstructionIsRunNext :
    0xFFFFFFFF < 2 ^ 32 ∧ 0x1FF < 2 ^ 9 ∧ inReady (alone waitA).block = true := by decide
theorem witness_FsmStepsOnItsTurnsAndWhenTurnsRunOut :
    fsmStep (alone emitA).params (alone emitA).block = some { waitA with count := 6, outq := [67] } ∧
    fsmStep (alone waitA).params (alone waitA).block = none ∧
    (State.withTurns [.fsm] (alone emitA)).host.turns = .fsm :: [] ∧ (alone waitA).host.turns = [] := by decide
/-- States of every kind that the gating of R56 tells apart: the hypotheses of every statement about a gated command. -/
theorem states_of_R56 :
    Configurable (alone idleA).block ∧ Configurable (alone doneA).block ∧ (alone waitA).block.state = .run ∧
    (alone errorA).block.state = .error := ⟨.inl rfl, .inr rfl, rfl, rfl⟩
theorem witness_NopChangesNothing :
    (0x00000001 : CommandWord).extractLsb' 24 8 = 0x00 ∧ (0x00000001 : CommandWord).extractLsb' 0 24 ≠ 0 ∧
    (alone waitA).block.state ≠ .error ∧ (alone errorA).block.state = .error := by decide
theorem witness_CtClearEmptiesTableAndStaging :
    (Configurable (alone idleA).block ∧ Configurable (alone doneA).block ∧ (alone waitA).block.state = .run ∧
    (alone errorA).block.state = .error) ∧
    (0x01000001 : CommandWord).extractLsb' 24 8 = 0x01 ∧ (0x01000001 : CommandWord).extractLsb' 0 24 ≠ 0 := ⟨states_of_R56, by decide⟩
theorem witness_SetTotalLoWritesTheLowHalf :
    (Configurable (alone idleA).block ∧ Configurable (alone doneA).block ∧ (alone waitA).block.state = .run ∧
    (alone errorA).block.state = .error) ∧
    (0x04010000 : CommandWord).extractLsb' 24 8 = 0x04 ∧ (0x04010000 : CommandWord).extractLsb' 16 8 ≠ 0 := ⟨states_of_R56, by decide⟩
theorem witness_SetTotalHiWritesTheHighHalf :
    (Configurable (alone idleA).block ∧ Configurable (alone doneA).block ∧ (alone waitA).block.state = .run ∧
    (alone errorA).block.state = .error) ∧
    (0x05010000 : CommandWord).extractLsb' 24 8 = 0x05 ∧ (0x05010000 : CommandWord).extractLsb' 16 8 ≠ 0 := ⟨states_of_R56, by decide⟩
theorem witness_AbortReturnsToIdleFromEveryState :
    (0x07000001 : CommandWord).extractLsb' 24 8 = 0x07 ∧ (0x07000001 : CommandWord).extractLsb' 0 24 ≠ 0 ∧
    (alone errorA).block.state = .error ∧ goesTo (exec .abort (alone errorA)) (alone (toIdle errorA)) = true ∧
    (alone (toIdle errorA)).block.state ≠ .error := by decide
theorem witness_CtPushStagesBitsOrRaisesCodeTooLong :
    1 ≤ [true].length ∧ (List.replicate 16 true).length ≤ 16 ∧ (alone waitA).block.state = .run ∧
    (alone errorA).block.state = .error ∧
    ((0x02100000 : CommandWord).extractLsb' 24 8 = 0x02 ∧ (0x02100000 : CommandWord).extractLsb' 20 4 ≠ 0) ∧
    ((0x02004000 : CommandWord).extractLsb' 24 8 = 0x02 ∧
      (0x02004000 : CommandWord).toNat % 2 ^ (15 - ((0x02004000 : CommandWord).extractLsb' 16 4).toNat) ≠ 0) ∧
    goesTo (exec .start (alone idleA)) (alone waitA) = true ∧
    Configurable (alone idleA).block ∧ (alone idleA).params.wf ∧
    (alone idleA).block.stgLen.toNat + (List.replicate 16 true).length ≤ (alone idleA).params.maxLen ∧
    (alone { idleA with stgLen := 239 }).block.stgLen.toNat + (List.replicate 16 true).length ≤ (alone idleA).params.maxLen ∧
    (alone idleA).params.maxLen < (alone { idleA with stgLen := 240 }).block.stgLen.toNat + (List.replicate 16 true).length := by
  refine ⟨by decide, by decide, rfl, rfl, by decide, by decide, by decide, .inl rfl, ?_⟩; decide
theorem witness_CtCommitWritesOneEntry :
    Configurable (alone doneA).block ∧ Table.read tableA 65 ≠ .invalid ∧ (alone waitA).block.state = .run ∧
    (alone errorA).block.state = .error ∧
    (0x03000100 : CommandWord).extractLsb' 24 8 = 0x03 ∧ (0x03000100 : CommandWord).extractLsb' 8 16 ≠ 0 := by
  refine ⟨.inr rfl, ?_⟩; decide
theorem witness_TablesWithTheSameEntriesAreEqual : Table.wf tableA := by decide
theorem witness_StartBeginsADecodeOrRaisesTableConflict :
    (alone waitA).block.state = .run ∧ (alone errorA).block.state = .error ∧
    (0x06000001 : CommandWord).extractLsb' 24 8 = 0x06 ∧ (0x06000001 : CommandWord).extractLsb' 0 24 ≠ 0 ∧
    Configurable (alone idleA).block ∧ conflictFree (alone idleA).block.ct = true ∧ conflictFree [] = true ∧
    conflictFree [(65, { v := true, len := 1, code := [false] }), (66, { v := true, len := 1, code := [false] })] = false := by
  refine ⟨rfl, rfl, by decide, by decide, .inl rfl, ?_⟩; decide
theorem witness_IllegalWordRaisesIllegalCmd :
    (alone waitA).block.state ≠ .error ∧ (alone errorA).block.state = .error := by decide
theorem witness_CommandErrorsFollowTheFixedOrder :
    ((alone errorA).block.state = .error ∧ Instr.start ≠ .abort) ∧
    exec (.illegal 0x08000000) (alone waitA) = .next (alone { waitA with state := .error, err := .illegalCmd }) ∧
    exec .start (alone waitA) = .next (alone { waitA with state := .error, err := .busy }) ∧
    exec (.ctPush [true]) (alone { idleA with stgLen := 255 })
      = .next (alone { idleA with stgLen := 255, state := .error, err := .codeTooLong }) ∧
    (alone waitA).block.state ≠ .error ∧ (alone idleA).block.state ≠ .error := 
  ⟨by decide, eq_of_goesTo (by decide), eq_of_goesTo (by decide), eq_of_goesTo (by decide), by decide, by decide⟩
theorem witness_ErrorsArePrecise :
    exec .start (alone waitA) = .next (alone { waitA with state := .error, err := .busy }) ∧
    fsmStep .reference eosA = some { eosA with state := .error, err := .truncated } ∧
    fsmStep .reference { waitA with ct := [], bitcnt := 8 } =
      some { waitA with ct := [], bitcnt := 7, state := .error, err := .struct } := 
  ⟨eq_of_goesTo (by decide), by decide, by decide⟩
theorem witness_RepeatedCommandsAreIdempotent :
    Configurable (alone { idleA with stg := [false], stgLen := 1 }).block ∧ Table.wf tableA ∧
    Table.read tableA 65 = stagedEntry { idleA with stg := [false], stgLen := 1 } := by
  refine ⟨.inl rfl, ?_⟩; decide
theorem witness_InByteFillsTheReader : inReady (alone waitA).block = true ∧ inReady (alone idleA).block = false ∧ bitA.bitcnt ≠ 0 := by decide
theorem witness_InEosMarksTheEndOfTheStream :
    inReady (alone { waitA with count := 5 }).block = true ∧ inReady (alone eosA).block = false ∧ eosA.eosf = true := by decide
theorem witness_InReadyExactlyInWait : inReady waitA = true := by decide
theorem witness_PopDeliversTheOldestSymbol :
    (State.withTurns [.pop] (alone fullA)).host.turns = .pop :: [] ∧
    (State.withTurns [.pop] (alone fullA)).block.outq = 66 :: [] ∧ (State.withTurns [.pop] (alone idleA)).block.outq = [] := by
  decide
theorem witness_DoneStepStopsAtTheTarget : ({ waitA with count := 6 } : Block).state = .run ∧
    ({ waitA with count := 6 } : Block).count = ({ waitA with count := 6 } : Block).total := by decide
theorem witness_EmitStepAppendsTheMatchedSymbol :
    emitA.state = .run ∧ emitA.count ≠ emitA.total ∧ matchSym emitA.ct emitA.cur = some 67 ∧
    emitA.outq.length < Params.reference.outDepth ∧ Params.reference.outDepth ≤ fullA.outq.length ∧
    emitA.count.toNat ≤ emitA.total.toNat := by decide
theorem witness_BitStepDescendsOrRaisesStruct :
    bitA.state = .run ∧ bitA.count ≠ bitA.total ∧ matchSym bitA.ct bitA.cur = none ∧ 0 < bitA.bitcnt.toNat ∧
    isNode bitA.ct (bitA.cur ++ [bitA.bitbuf[7]]) = true ∧ matchSym [] bitA.cur = none ∧
    isNode [] (bitA.cur ++ [bitA.bitbuf[7]]) = false := by decide
theorem witness_TruncatedStepRaisesTruncated :
    eosA.state = .run ∧ eosA.count ≠ eosA.total ∧ matchSym eosA.ct eosA.cur = none ∧ eosA.bitcnt = 0 ∧ eosA.eosf = true := by
  decide
theorem witness_FsmStepsOnlyInRun : idleA.state ≠ .run ∧ doneA.state ≠ .run ∧ errorA.state ≠ .run := by decide
theorem witness_RebuiltTreeHasTheNodesOfTheTable : conflictFree tableA = true := by decide
theorem witness_MatchedNodesAreLeaves : conflictFree tableA = true ∧ matchSym tableA [true, false] ≠ none := by decide
theorem witness_TreeDoesNotDependOnEntryOrder :
    ([(65, [false]), (67, [true, false])] : List (Byte × BitString)).Perm [(67, [true, false]), (65, [false])] ∧
    (([(65, [false]), (67, [true, false])] : List (Byte × BitString)).map fun e => e.2).Nodup :=
  ⟨List.Perm.swap _ _ _, by decide⟩
theorem witness_ConflictFreeIsThePrefixCodeProperty :
    Table.wf tableA ∧ Table.wf [(90, { v := true, len := 0, code := [] })] ∧
    conflictFree [(90, { v := true, len := 0, code := [] })] = true ∧
    (Table.read [(90, { v := true, len := 0, code := [] })] 90).code = [] ∧
    (Table.read [(90, { v := true, len := 0, code := [] })] 90).v = true := by decide
/-- Each element is changed by some instruction. -/
theorem witness_EachElementChangesOnlyByItsWriters :
    exec .start (alone doneA) = .next (alone waitA) ∧ (alone waitA).block.state ≠ (alone doneA).block.state ∧
    (alone waitA).block.count ≠ (alone doneA).block.count ∧ (alone waitA).block.bitcnt ≠ (alone doneA).block.bitcnt ∧
    exec (.setTotalLo 7) (alone idleA) = .next (alone { idleA with total := 7 }) ∧ (7 : BitVec 32) ≠ idleA.total ∧
    exec .ctClear (alone idleA) = .next (alone { idleA with ct := [] }) ∧ [] ≠ idleA.ct ∧
    exec (.ctPush [true]) (alone idleA) = .next (alone { idleA with stg := [true], stgLen := 1 }) ∧ [true] ≠ idleA.stg ∧
    exec .start (alone { eosA with state := .done }) = .next (alone waitA) ∧ waitA.cur ≠ eosA.cur ∧ waitA.eosf ≠ eosA.eosf := 
  ⟨eq_of_goesTo (by decide), by decide, by decide, by decide, eq_of_goesTo (by decide), by decide, eq_of_goesTo (by decide), by decide,
   eq_of_goesTo (by decide), by decide, eq_of_goesTo (by decide), by decide, by decide⟩
theorem witness_FsmStepsLeaveTableStagingAndTargetAlone :
    fsmStep .reference emitA = some { waitA with count := 6, outq := [67] } ∧
    fsmStep .reference bitA = some { bitA with cur := [true, false], bitcnt := 7 } := by decide
theorem witness_TableIsFixedDuringADecode :
    step (alone bitA) = .next (alone { bitA with cur := [true, false], bitcnt := 7 }) ∧ (alone bitA).block.state = .run ∧
    ¬ resetIsNext (alone bitA) := by
  refine ⟨eq_of_goesTo (by decide), by decide, ?_⟩; simp [resetIsNext, alone, State.reset, HostSide.quiet]
theorem witness_OnlyClearCommitAndResetChangeTheTable :
    step ((alone idleA).withFetchWord 32 0x01000000) = .next (alone { idleA with ct := [] }) ∧
    ¬ resetIsNext ((alone idleA).withFetchWord 32 0x01000000) ∧ Table.read [] 65 ≠ Table.read idleA.ct 65 := by
  refine ⟨eq_of_goesTo (by decide), ?_, by decide⟩
  have h : ((alone idleA).withFetchWord 32 0x01000000).host.turns.head? = some .command := by decide
  simp [resetIsNext, h]
theorem witness_ErrorIsStickyUntilAbortOrReset :
    (State.withTurns [.pop] (alone { errorA with outq := [66] })).block.state = .error ∧
    step (State.withTurns [.pop] (alone { errorA with outq := [66] }))
      = .next { alone errorA with host := { HostSide.quiet with received := [66] } } ∧
    ¬ resetIsNext (State.withTurns [.pop] (alone { errorA with outq := [66] })) ∧
    ¬ commandIsNext .abort (State.withTurns [.pop] (alone { errorA with outq := [66] })) := by
  refine ⟨by decide, eq_of_goesTo (by decide), ?_, ?_⟩ <;> simp [resetIsNext, commandIsNext, State.withTurns]
theorem witness_ResetSetsEveryElement : (State.withTurns [.reset] (alone fullA)).host.turns = .reset :: [] := by decide

/-- The entries of T_a are as R18 requires. -/
theorem entries_tableA (d : Byte) : (Table.read tableA d).ok .reference := by
  simp only [tableA, Table.read]
  split
  · simp [Entry.ok, Params.reference]
  split
  · simp [Entry.ok, Params.reference]
  split
  · simp [Entry.ok, Params.reference]
  · simp [Entry.ok, Entry.invalid]

/-- The example of R69 is a good state. -/
theorem inv_bitA : (alone bitA).Inv where
  params := by decide
  storage :=
    { table := by decide, entries := entries_tableA, stagedLength := by decide, stagedBound := by decide,
      bitCount := by decide, queue := by decide }
  error := by simp [ErrMatchesState, alone, bitA, waitA, idleA, Block.reset]
  decode := { table := by decide, cursor := by decide, counts := by decide }
  reader := by simp [ReaderOk, alone, bitA, waitA, idleA, Block.reset]

/-- So is the example of R67. -/
theorem inv_beforeDone : (alone { waitA with count := 6 }).Inv where
  params := by decide
  storage :=
    { table := by decide, entries := entries_tableA, stagedLength := by decide, stagedBound := by decide,
      bitCount := by decide, queue := by decide }
  error := by simp [ErrMatchesState, alone, waitA, idleA, Block.reset]
  decode := { table := by decide, cursor := by decide, counts := by decide }
  reader := by simp [ReaderOk, alone, waitA, idleA, Block.reset]

theorem witness_EveryStepKeepsTheInvariant :
    (alone bitA).Inv ∧ step (alone bitA) = .next (alone { bitA with cur := [true, false], bitcnt := 7 }) :=
  ⟨inv_bitA, eq_of_goesTo (by decide)⟩
theorem witness_EveryStepKeepsErrMatchingState :
    ErrMatchesState (alone bitA).block ∧ step (alone bitA) = .next (alone { bitA with cur := [true, false], bitcnt := 7 }) :=
  ⟨inv_bitA.error, eq_of_goesTo (by decide)⟩
theorem witness_CursorIsAPrefixOfAValidCode :
    (alone bitA).Inv ∧ (alone bitA).block.state = .run ∧ (alone bitA).block.cur = [true] := ⟨inv_bitA, by decide, by decide⟩
theorem witness_CountNeverPassesTheTarget :
    (alone bitA).Inv ∧ fsmStep (alone bitA).params (alone bitA).block = some { bitA with cur := [true, false], bitcnt := 7 } ∧
    (alone { waitA with count := 6 }).Inv ∧
    fsmStep (alone { waitA with count := 6 }).params (alone { waitA with count := 6 }).block
      = some { waitA with count := 6, state := .done } :=
  ⟨inv_bitA, by decide, inv_beforeDone, by decide⟩
theorem witness_StepsAreTheTransitionsOfTheSystem :
    step (alone bitA) = .next (alone { bitA with cur := [true, false], bitcnt := 7 }) ∧
    Transition .reference fullA (.pop 66) emitA ∧ Transition .reference waitA (.accept 0x11F) { waitA with eosf := true } ∧
    Transition .reference waitA (.accept 0x01F) { waitA with bitbuf := 0x1F, bitcnt := 8 } ∧
    Transition .reference fullA .reset Block.reset ∧
    Transition .reference doneA (.command 0x07000000) { doneA with state := .idle } :=
  ⟨eq_of_goesTo (by decide), ⟨by decide, by decide⟩, ⟨by decide, by decide⟩, ⟨by decide, by decide⟩, rfl, fun _ => rfl⟩
/-- A decode of one symbol by a zero-length code, the pop before or after the DONE step. -/
theorem witness_DecodeDoesNotDependOnTheInterleaving :
    let s : State := alone { waitA with ct := [(90, { v := true, len := 0, code := [] })], total := 1 }
    s.block.state = .run ∧ noCommand [.fsm, .fsm, .pop] = true ∧ noCommand [.fsm, .pop, .token, .fsm] = true ∧
    (core.run 3 (s.withTurns [.fsm, .fsm, .pop]) =
      .next { s with block := { s.block with count := 1, state := .done }, host := { HostSide.quiet with received := [90] } }) ∧
    (core.run 4 (s.withTurns [.fsm, .pop, .token, .fsm]) =
      .next { s with block := { s.block with count := 1, state := .done }, host := { HostSide.quiet with received := [90] } }) :=
  ⟨rfl, by decide, by decide, rfl, rfl⟩

/-- T_a has no zero-length code. -/
theorem noEmptyCode_tableA : NoEmptyCode tableA := by
  intro d
  simp only [tableA, Table.read]
  split <;> [simp; split <;> [simp; split <;> simp [Entry.invalid]]]
/-- Program P1, and (with its second byte left out) V-F3. -/
theorem witness_DecoderAgreesWithTheSourceLoop :
    let s : State := { alone idleA with host := { HostSide.quiet with tokens := [0x1F, 0x00].map byteToken ++ [eosToken] } }
    s.params.wf ∧ Table.wf s.block.ct ∧ conflictFree s.block.ct = true ∧ NoEmptyCode s.block.ct ∧ Configurable s.block ∧
    s.block.outq = [] ∧ s.host.tokens = [0x1F, 0x00].map byteToken ++ [eosToken] ∧
    (sourceDecode s.block.ct ([0x1F, 0x00].flatMap byteBits) s.block.total.toNat).ending = .complete ∧
    (sourceDecode s.block.ct ([0x1F].flatMap byteBits) s.block.total.toNat).ending = .truncated ∧
    (sourceDecode [(65, { v := true, len := 1, code := [false] })] (byteBits 0x20) 3).ending = .corrupt :=
  ⟨by decide, by decide, by decide, noEmptyCode_tableA, .inl rfl, rfl, rfl, by decide, by decide, by decide⟩
/-- Program P1. -/
theorem witness_PayloadDecodesToItsSymbols :
    let s : State := { alone idleA with host := { HostSide.quiet with tokens := [0x01F, 0x000, 0x100] } }
    let syms : List Byte := [65, 65, 65, 66, 66, 67]
    s.params.wf ∧ Table.wf s.block.ct ∧ conflictFree s.block.ct = true ∧ NoEmptyCode s.block.ct ∧ syms.length < 2 ^ 32 ∧
    (∀ d ∈ syms, (Table.read s.block.ct d).v = true) ∧ Configurable s.block ∧
    s.block.total = BitVec.ofNat 32 syms.length ∧ s.block.outq = [] ∧
    s.host.tokens = (payload s.block.ct syms).map byteToken ++ [0x100] :=
  ⟨by decide, by decide, by decide, noEmptyCode_tableA, by decide, by decide, .inl rfl, by decide, rfl, by decide⟩
/-- V-F8's and V-F9's tables. -/
theorem witness_SingleSymbolTablesDecode :
    let s : State := alone { Block.reset with ct := [(90, { v := true, len := 0, code := [] })], total := 4 }
    let b : Block := { waitA with ct := [(90, { v := true, len := 1, code := [false] })], bitbuf := 0x20, bitcnt := 8 }
    s.params.wf ∧ s.block.ct = [(90, { v := true, len := 0, code := [] })] ∧ Configurable s.block ∧ s.block.outq = [] ∧
    b.ct = [(90, { v := true, len := 1, code := [false] })] ∧ b.state = .run ∧ b.count ≠ b.total ∧ b.cur = [] ∧
    0 < b.bitcnt.toNat ∧ b.bitbuf[7] = false ∧ ({ b with bitbuf := 0x80 } : Block).bitbuf[7] = true :=
  ⟨by decide, rfl, .inl rfl, rfl, rfl, rfl, by decide, rfl, by decide, by decide, by decide⟩
/-- V-T12's line, and the longest code. -/
theorem witness_CtEntryLoadsOneLine :
    (alone idleA).params.wf ∧ Configurable (alone idleA).block ∧ (alone idleA).block.stg = [] ∧ (alone idleA).block.stgLen = 0 ∧
    (List.replicate 17 false).length ≤ (alone idleA).params.maxLen ∧ (List.replicate 255 true).length ≤ (alone idleA).params.maxLen :=
  ⟨by decide, .inl rfl, rfl, rfl, by decide, by rw [List.length_replicate]; decide⟩
/-- V-T5's lines, and two orders of distinct symbols. -/
theorem witness_LoadTableKeepsTheLastLineOfEachSymbol :
    (alone doneA).params.wf ∧ Configurable (alone doneA).block ∧
    (∀ e ∈ ([(65, [false]), (65, [true]), (66, [false])] : List (Byte × BitString)), e.2.length ≤ (alone doneA).params.maxLen) ∧
    ([(65, [true]), (66, [false])] : List (Byte × BitString)).Perm [(66, [false]), (65, [true])] ∧
    (([(65, [true]), (66, [false])] : List (Byte × BitString)).map fun e => e.1).Nodup :=
  ⟨by decide, .inr rfl, by decide, List.Perm.swap _ _ _, by decide⟩
theorem witness_DecodeWaitsForEverWithoutTokens :
    inReady (alone waitA).block = true ∧ (alone waitA).block.outq = [] ∧ (alone waitA).host.tokens = [] := by decide
theorem witness_FullQueueHoldsTheDecode :
    (alone fullA).block.state = .run ∧ (alone fullA).block.count ≠ (alone fullA).block.total ∧
    matchSym (alone fullA).block.ct (alone fullA).block.cur = some 67 ∧
    (alone fullA).params.outDepth ≤ (alone fullA).block.outq.length ∧ (∀ t ∈ [Turn.fsm, Turn.token], t = .fsm ∨ t = .token) ∧
    core.run 2 ((alone fullA).withTurns [.fsm, .token]) = .next (alone fullA) :=
  ⟨by decide, by decide, by decide, by decide, by decide, rfl⟩

end Sys2Proof.Tests
end

