-- ==== Sys2Proof/Proofs/Scope.lean ====
section
/-! PROOFS. Proofs/Scope.lean: the statements of 00_scope.md. Each transition of R11 is the function the model runs for it, and the schedule
of a transition makes the next step that function's. -/

namespace Sys2Proof.Machine

/-! ### A transfer the host is about to make -/

/-- The word placed first is executed at the state it was placed in (R83). -/
theorem step_aboutTo_command (s : State) (w : CommandWord) :
    step (s.aboutTo (.command w)) = exec (decodeCommand w) s := rfl

/-- The token placed first is executed at the state it was placed in, where the block accepts it (R79). -/
theorem step_aboutTo_token {s : State} (t : Token) (h : inReady s.block = true) :
    step (s.aboutTo (.token t)) = exec (decodeToken t) s :=
  if_pos h

theorem withFetchWord_word (s : State) {w : Nat} (h : w < 2 ^ 32) :
    s.withFetchWord 32 w = s.aboutTo (.command (BitVec.ofNat 32 w)) := by
  simp [State.withFetchWord, transferOfBits, h, -Nat.reducePow]

theorem withFetchWord_token (s : State) {w : Nat} (h : w < 2 ^ 9) :
    s.withFetchWord 16 w = s.aboutTo (.token (BitVec.ofNat 9 w)) := by
  simp [State.withFetchWord, transferOfBits, h, -Nat.reducePow]

/-! ### The transitions of R11 as functions of the block -/

/-- The rules R67 to R70 as relations, and the FSM's step as a function, are the same. -/
theorem fsmTransition_iff (p : Params) (b b' : Block) : fsmTransition p b b' ↔ fsmStep p b = some b' := by
  have hbits : 0 < b.bitcnt.toNat ↔ b.bitcnt ≠ 0 := by bv_omega
  simp only [fsmTransition, hbits]
  constructor
  · rintro ⟨hr, ⟨hc, rfl⟩ | ⟨hc, d, hm, hq, rfl⟩ | ⟨hc, hm, hb, hn, rfl⟩ | ⟨hc, hm, hb, hn, rfl⟩ | ⟨hc, hm, hb, he, rfl⟩⟩
    · exact fsmStep_done p hr hc
    · exact fsmStep_emit hr hc hm hq
    · exact (fsmStep_bit p hr hc hm hb).trans (congrArg some (if_pos hn))
    · exact (fsmStep_bit p hr hc hm hb).trans (congrArg some (if_neg (Bool.eq_false_iff.1 hn)))
    · exact fsmStep_truncated p hr hc hm hb he
  · exact fsmStep_cases

theorem transition_command_iff (p : Params) (b b' : Block) (w : CommandWord) :
    Transition p b (.command w) b' ↔ b' = blockEffect p (decodeCommand w) b := by
  have heffect : Transition p b (.command w) b' ↔ HostSide → b' = blockEffect p (decodeCommand w) b := by
    simp [Transition, exec_eq, eq_comm]
  exact heffect.trans ⟨fun h => h .quiet, fun h _ => h⟩

theorem transition_accept_iff (p : Params) (b b' : Block) (t : Token) :
    Transition p b (.accept t) b' ↔ inReady b = true ∧ b' = blockEffect p (decodeToken t) b := by
  refine and_congr_right fun hr => ?_
  rw [blockEffect_token p t hr]
  cases ht : t[8] <;> simp [loadByte, seeEos]

theorem transition_pop_iff (p : Params) (b b' : Block) (d : Byte) :
    Transition p b (.pop d) b' ↔ popOutput b = some (d, b') := by
  cases hq : b.outq with
  | nil => simp [Transition, popOutput, hq]
  | cons e q =>
    simp only [Transition, popOutput, hq, List.cons.injEq, Option.some.injEq, Prod.mk.injEq]
    constructor
    · rintro ⟨⟨rfl, rfl⟩, hb⟩
      exact ⟨rfl, hb.symm⟩
    · rintro ⟨rfl, rfl⟩
      exact ⟨⟨rfl, rfl⟩, rfl⟩

/-! ### Steps and transitions -/

/-- What the host receives by a transition: the popped symbol, and by every other transition nothing (R82). -/
def Label.delivers : Label → List Byte
  | .pop d => [d]
  | _ => []

/-- Every step is a transition of the system, or a turn that passes. -/
theorem transition_of_step {s s' : State} (h : step s = .next s') :
    (∃ l, Transition s.params s.block l s'.block) ∨ s'.block = s.block := by
  rcases step_cases h with ⟨b, hf, _, rfl⟩ | ⟨w, _, _, _, rfl⟩ | ⟨t, _, _, _, hr, rfl⟩ | ⟨d, q, _, hq, rfl⟩ | ⟨_, rfl⟩ |
    ⟨_, _, rfl⟩
  · exact .inl ⟨.fsm, (fsmTransition_iff ..).2 hf⟩
  · exact .inl ⟨.command w, (transition_command_iff ..).2 rfl⟩
  · exact .inl ⟨.accept t, (transition_accept_iff ..).2 ⟨hr, rfl⟩⟩
  · exact .inl ⟨.pop d, (transition_pop_iff ..).2 (by simp [popOutput, hq])⟩
  · exact .inl ⟨.reset, rfl⟩
  · exact .inr rfl

/-- No step writes the parameters (R5, R6). -/
theorem step_params {s s' : State} (h : step s = .next s') : s'.params = s.params := by
  rcases step_cases h with ⟨_, _, _, rfl⟩ | ⟨_, _, _, _, rfl⟩ | ⟨_, _, _, _, _, rfl⟩ | ⟨_, _, _, _, rfl⟩ | ⟨_, rfl⟩ |
    ⟨_, _, rfl⟩ <;> rfl

/-- Under its schedule an enabled transition is the next step: the block goes where the transition takes it,
the host receives what it delivers, and everything else is as it was. -/
theorem step_scheduled {s : State} {l : Label} {b : Block} (h : Transition s.params s.block l b) :
    step (s.scheduled l) =
      .next { s with block := b, host := { s.host with received := s.host.received ++ l.delivers } } := by
  cases l with
  | command w =>
    obtain rfl := (transition_command_iff ..).1 h
    simp [State.scheduled, step_aboutTo_command, exec_eq, Label.delivers]
  | accept t =>
    obtain ⟨hr, rfl⟩ := (transition_accept_iff ..).1 h
    simp [State.scheduled, step_aboutTo_token t hr, exec_eq, Label.delivers]
  | pop d =>
    have hpop := (transition_pop_iff ..).1 h
    simp [State.scheduled, step, stepOnce, takeTurn, popTurn, hpop, State.withTurns, Label.delivers]
  | reset =>
    obtain rfl : b = Block.reset := h
    simp [State.scheduled, step, stepOnce, takeTurn, resetTurn, State.onBlock, State.withTurns, Label.delivers]
  | fsm =>
    have hf := (fsmTransition_iff ..).1 h
    have hstep : step (s.scheduled .fsm) = .next { s with block := b } := step_of_fsmStep rfl hf
    simp [hstep, Label.delivers]

/-! ### The statements -/

/-- Settles O50: a step is a transition or passes (`transition_of_step`), and the schedule of a transition runs it (`step_scheduled`). -/
theorem stepsAreTheTransitionsOfTheSystem : Obligations.StepsAreTheTransitionsOfTheSystem := by
  refine ⟨fun s s' h => ⟨step_params h, transition_of_step h⟩, fun s l b h => ⟨_, step_scheduled h, rfl, rfl, ?_⟩⟩
  cases l <;> rfl

/-- Settles O9: the transfer that `withFetchWord` places is the one the host is about to make. -/
theorem placedInstructionIsRunNext : Obligations.PlacedInstructionIsRunNext := by
  refine fun s w => ⟨fun hw => ?_, fun hw hr => ?_⟩
  · rw [withFetchWord_word s hw, step_aboutTo_command]
  · rw [withFetchWord_token s hw, step_aboutTo_token _ hr]

end Sys2Proof.Machine
end

