-- ==== Sys2Proof/Proofs/State.lean ====
section
/-! PROOFS. Proofs/State.lean: the statements of 10_state.md. An invariant of the block is shown once to be kept by each operation of its
transitions (`KeptByOperations`), and every step then keeps it. -/

namespace Sys2Proof.Machine

/-! ### Invariants of the block -/

/-- The property holds of the reset block, and every operation that the block's transitions are made of keeps it, under the conditions
in which a transition runs that operation. -/
structure KeptByOperations (p : Params) (P : Block → Prop) : Prop where
  /-- Reset (R100). -/
  reset : P Block.reset
  /-- Every error (R85). -/
  raised : ∀ {b : Block} {e : ErrCode}, e ≠ .noError → P b → P (raise e b)
  /-- ABORT (R65). -/
  aborted : ∀ {b : Block}, P b → P (toIdle b)
  /-- An accepted payload byte (R80). -/
  byteAccepted : ∀ {b : Block} (d : Byte), inReady b = true → P b → P (loadByte d b)
  /-- The accepted end of the stream (R81). -/
  eosAccepted : ∀ {b : Block}, inReady b = true → P b → P (seeEos b)
  /-- CT_CLEAR (R58). -/
  tableCleared : ∀ {b : Block}, Configurable b → P b → P (performCtClear b)
  /-- CT_PUSH within MAXLEN (R59). -/
  bitsStaged : ∀ {b : Block} {bits : BitString}, Configurable b → b.stgLen.toNat + bits.length ≤ p.maxLen → P b →
    P (stage bits b)
  /-- CT_COMMIT (R60). -/
  entryCommitted : ∀ {b : Block} (sym : Byte), Configurable b → P b → P (performCtCommit sym b)
  /-- SET_TOTAL_LO and SET_TOTAL_HI (R62, R63). -/
  totalSet : ∀ {b : Block} (n : BitVec 32), Configurable b → P b → P { b with total := n }
  /-- START on a conflict-free table (R64). -/
  decodeBegun : ∀ {b : Block}, Configurable b → conflictFree b.ct = true → P b → P (beginDecode b)
  /-- The DONE step (R67). -/
  decodeDone : ∀ {b : Block}, b.state = .run → P b → P (doneStep b)
  /-- The EMIT step (R68). -/
  symbolEmitted : ∀ {b : Block} (d : Byte), b.count ≠ b.total → b.outq.length < p.outDepth → P b → P (emit d b)
  /-- The BIT step's bit (R69). -/
  bitDropped : ∀ {b : Block}, b.bitcnt ≠ 0 → P b → P (dropBit b)
  /-- The BIT step's descent (R69). -/
  cursorMoved : ∀ {b : Block} {q : BitString}, isNode b.ct q = true → P b → P (moveCursor q b)
  /-- The output pop (R82). -/
  symbolPopped : ∀ {b : Block} {d : Byte} {q : List Byte}, b.outq = d :: q → P b → P { b with outq := q }

section
variable {p : Params} {P : Block → Prop} (hP : KeptByOperations p P)
include hP

theorem KeptByOperations.blockEffect (i : Instr) {b : Block} (hb : P b) : P (blockEffect p i b) := by
  rcases effect_cases p i b with he | ⟨_, _, _, he⟩ | ⟨_, _, he, _⟩ | ⟨_, he⟩ | ⟨hr, ⟨d, _, he⟩ | ⟨_, he⟩⟩ |
    ⟨hc, ⟨_, he⟩ | ⟨_, _, hlen, he⟩ | ⟨_, _, _, he⟩ | ⟨sym, _, he⟩ | ⟨imm, _, he⟩ | ⟨imm, _, he⟩ | ⟨_, hfree, he⟩ | ⟨_, _, he⟩⟩ <;>
    rw [he]
  · exact hb
  · exact hP.raised (by decide) hb
  · exact hP.raised (by decide) hb
  · exact hP.aborted hb
  · exact hP.byteAccepted d hr hb
  · exact hP.eosAccepted hr hb
  · exact hP.tableCleared hc hb
  · exact hP.bitsStaged hc hlen hb
  · exact hP.raised (by decide) hb
  · exact hP.entryCommitted sym hc hb
  · exact hP.totalSet _ hc hb
  · exact hP.totalSet _ hc hb
  · exact hP.decodeBegun hc hfree hb
  · exact hP.raised (by decide) hb

theorem KeptByOperations.fsmStep {b b' : Block} (h : fsmStep p b = some b') (hb : P b) : P b' := by
  obtain ⟨hr, ⟨_, rfl⟩ | ⟨hc, d, _, hq, rfl⟩ | ⟨_, _, hbits, hn, rfl⟩ | ⟨_, _, hbits, _, rfl⟩ | ⟨_, _, _, _, rfl⟩⟩ :=
    fsmStep_cases h
  · exact hP.decodeDone hr hb
  · exact hP.symbolEmitted d hc hq hb
  · exact hP.cursorMoved hn (hP.bitDropped hbits hb)
  · exact hP.raised (by decide) (hP.bitDropped hbits hb)
  · exact hP.raised (by decide) hb

end

/-- A property that every operation keeps is kept by every step. -/
theorem KeptByOperations.step {P : Block → Prop} {s s' : State} (hP : KeptByOperations s.params P) (h : step s = .next s')
    (hs : P s.block) : P s'.block := by
  rcases step_cases h with ⟨_, hf, _, rfl⟩ | ⟨_, _, _, _, rfl⟩ | ⟨_, _, _, _, _, rfl⟩ | ⟨_, _, _, hq, rfl⟩ | ⟨_, rfl⟩ | ⟨_, _, rfl⟩
  · exact hP.fsmStep hf hs
  · exact hP.blockEffect _ hs
  · exact hP.blockEffect _ hs
  · exact hP.symbolPopped hq hs
  · exact hP.reset
  · exact hs

theorem Configurable.ne_run {b : Block} (h : Configurable b) : b.state ≠ .run := fun hr => not_configurable_of_run hr h

theorem Configurable.ne_error {b : Block} (h : Configurable b) : b.state ≠ .error := fun he => not_configurable_of_error he h

/-! ### `ERR` matches `STATE` (R15) -/

/-- Outside `ERROR` the state may change without `ERR`, as START and the DONE step do. -/
theorem ErrMatchesState.of_ne_error {b b' : Block} (h : ErrMatchesState b) (hb : b.state ≠ .error) (hb' : b'.state ≠ .error)
    (he : b'.err = b.err) : ErrMatchesState b' := by
  simp_all [ErrMatchesState]

theorem errMatchesState_kept (p : Params) : KeptByOperations p ErrMatchesState where
  reset := by simp [ErrMatchesState, Block.reset]
  raised he _ := ⟨fun _ => rfl, fun _ => he⟩
  aborted _ := by simp [ErrMatchesState]
  byteAccepted _ _ h := h
  eosAccepted _ h := h
  tableCleared _ h := h
  bitsStaged _ _ h := h
  entryCommitted _ _ h := h
  totalSet _ _ h := h
  decodeBegun hc _ h := h.of_ne_error hc.ne_error (by simp) rfl
  decodeDone hr h := h.of_ne_error (by simp [hr]) (by simp) rfl
  symbolEmitted _ _ _ h := h
  bitDropped _ h := h
  cursorMoved _ h := h
  symbolPopped _ h := h

/-! ### The storage is as wide as R12 says -/

theorem entryOk_invalid (p : Params) : Entry.invalid.ok p := ⟨nofun, fun _ => rfl⟩

/-- Within MAXLEN, which is at most 255, the staged length does not wrap (R59). -/
theorem stage_stgLen_toNat {p : Params} (hp : p.wf) {b : Block} {bits : BitString}
    (h : b.stgLen.toNat + bits.length ≤ p.maxLen) : (stage bits b).stgLen.toNat = b.stgLen.toNat + bits.length := by
  obtain ⟨_, hmax, _⟩ := hp
  rw [stage_stgLen, BitVec.toNat_add, BitVec.toNat_ofNat]
  omega

theorem StorageOk.stagedEntry_ok {p : Params} {b : Block} (h : StorageOk p b) : (stagedEntry b).ok p :=
  ⟨fun _ => ⟨h.stagedLength, h.stagedBound⟩, nofun⟩

theorem storageOk_kept {p : Params} (hp : p.wf) : KeptByOperations p (StorageOk p) where
  reset :=
    { table := wf_nil, entries := fun _ => entryOk_invalid p, stagedLength := rfl, stagedBound := Nat.zero_le _,
      bitCount := Nat.zero_le _, queue := Nat.zero_le _ }
  raised _ h := { h with }
  aborted h := { h with }
  byteAccepted _ _ h := { h with bitCount := le_rfl }
  eosAccepted _ h := { h with }
  tableCleared _ h :=
    { h with table := wf_nil, entries := fun _ => entryOk_invalid p, stagedLength := rfl, stagedBound := Nat.zero_le _ }
  bitsStaged _ hlen h :=
    { h with
      stagedLength := by rw [stage_stgLen_toNat hp hlen, stage_stg, List.length_append, h.stagedLength]
      stagedBound := by rwa [stage_stgLen_toNat hp hlen] }
  entryCommitted {b} sym _ h :=
    { h with
      table := wf_write h.table sym _
      entries := fun d => by
        rw [performCtCommit, emptyStaging_ct, read_write _ _ _ _ (stagedEntry_ne b)]
        split
        · exact h.stagedEntry_ok
        · exact h.entries d
      stagedLength := rfl
      stagedBound := Nat.zero_le _ }
  totalSet _ _ h := { h with }
  decodeBegun _ _ h := { h with bitCount := Nat.zero_le _ }
  decodeDone _ h := { h with }
  symbolEmitted _ _ hq h := { h with queue := by simpa using hq }
  bitDropped {b} hbits h :=
    { h with
      bitCount := by
        have h8 := h.bitCount
        rw [dropBit_bitcnt]
        bv_omega }
  cursorMoved _ h := { h with }
  symbolPopped hq h := { h with queue := Nat.le_of_succ_le (by simpa [hq] using h.queue) }

/-! ### A decode's table, cursor and count (R38, R74, R75) -/

theorem decodeOk_of_not_run {b : Block} (h : b.state ≠ .run) : DecodeOk b :=
  ⟨fun hr => absurd hr h, fun hr => absurd hr h, fun hr => absurd hr h⟩

theorem decodeOk_kept (p : Params) : KeptByOperations p DecodeOk where
  reset := decodeOk_of_not_run nofun
  raised _ _ := decodeOk_of_not_run nofun
  aborted _ := decodeOk_of_not_run nofun
  byteAccepted _ _ h := { h with }
  eosAccepted _ h := { h with }
  tableCleared hc _ := decodeOk_of_not_run hc.ne_run
  bitsStaged hc _ _ := decodeOk_of_not_run hc.ne_run
  entryCommitted _ hc _ := decodeOk_of_not_run hc.ne_run
  totalSet _ hc _ := decodeOk_of_not_run hc.ne_run
  decodeBegun _ hfree _ :=
    { table := fun _ => hfree, cursor := fun _ => isNode_root _, counts := fun _ => Nat.zero_le _ }
  decodeDone _ _ := decodeOk_of_not_run nofun
  symbolEmitted {b} _ hc _ h :=
    { h with
      cursor := fun _ => isNode_root _
      counts := fun hr => by
        have hle := h.counts hr
        rw [emit_count, emit_total]
        bv_omega }
  bitDropped _ h := { h with }
  cursorMoved hn h := { h with cursor := fun _ => hn }
  symbolPopped _ h := { h with }

/-! ### No bit is left behind the end of the stream (R79) -/

theorem readerOk_kept (p : Params) : KeptByOperations p ReaderOk where
  reset := nofun
  raised _ h := h
  aborted h := h
  byteAccepted {b} _ hr _ he := by
    obtain ⟨_, _, _, _, hne⟩ := (inReady_iff b).1 hr
    exact absurd (he.symm.trans hne) nofun
  eosAccepted {b} hr _ _ := by
    obtain ⟨_, _, _, hbits, _⟩ := (inReady_iff b).1 hr
    exact hbits
  tableCleared _ h := h
  bitsStaged _ _ h := h
  entryCommitted _ _ h := h
  totalSet _ _ h := h
  decodeBegun _ _ _ := nofun
  decodeDone _ h := h
  symbolEmitted _ _ _ h := h
  bitDropped hbits h he := absurd (h he) hbits
  cursorMoved _ h := h
  symbolPopped _ h := h

/-! ### The statements -/

/-- Settles O45: no step writes the parameters, and each part of the invariant is kept by every operation. -/
theorem everyStepKeepsTheInvariant : Obligations.EveryStepKeepsTheInvariant := fun _ _ hs h =>
  { params := step_params h ▸ hs.params
    storage := step_params h ▸ (storageOk_kept hs.params).step h hs.storage
    error := (errMatchesState_kept _).step h hs.error
    decode := (decodeOk_kept _).step h hs.decode
    reader := (readerOk_kept _).step h hs.reader }

/-- Settles O46: every part of the invariant holds of the reset block, and the reference parameters are legal. -/
theorem resetMeetsTheInvariant : Obligations.ResetMeetsTheInvariant :=
  have hp : Params.reference.wf := by decide
  { params := hp
    storage := (storageOk_kept hp).reset
    error := (errMatchesState_kept .reference).reset
    decode := (decodeOk_kept .reference).reset
    reader := (readerOk_kept .reference).reset }

/-- Settles O47: R15 is one of the properties that every operation keeps. -/
theorem everyStepKeepsErrMatchingState : Obligations.EveryStepKeepsErrMatchingState :=
  ⟨(errMatchesState_kept .reference).reset, fun _ _ hs h => (errMatchesState_kept _).step h hs⟩

/-- Settles O15: the two tables list the same entries, each in the order of the symbols. -/
theorem tablesWithTheSameEntriesAreEqual : Obligations.TablesWithTheSameEntriesAreEqual := by
  intro t u ht hu hread
  have hmem : ∀ x : Byte × Entry, x ∈ t ↔ x ∈ u := fun ⟨d, e⟩ => by rw [mem_iff_read ht, mem_iff_read hu, hread]
  have hperm : t.Perm u :=
    (List.perm_ext_iff_of_nodup (ht.1.imp fun h heq => by simp [heq] at h) (hu.1.imp fun h heq => by simp [heq] at h)).2 hmem
  exact hperm.eq_of_pairwise (fun _ _ _ _ h h' => absurd h' h.asymm) ht.1 hu.1

/-- Settles O39, by the cases of an instruction's effect. -/
theorem eachElementChangesOnlyByItsWriters : Obligations.EachElementChangesOnlyByItsWriters := by
  intro i s s' h
  obtain rfl := exec_next h
  refine ⟨rfl, rfl, blockEffect_outq .., ?_⟩
  rcases effect_cases s.params i s.block with he | ⟨_, _, rfl, he⟩ | ⟨_, _, he, _, hbyte, heos⟩ | ⟨rfl, he⟩ |
    ⟨_, ⟨_, rfl, he⟩ | ⟨rfl, he⟩⟩ | ⟨_, ⟨rfl, he⟩ | ⟨_, rfl, _, he⟩ | ⟨_, rfl, _, he⟩ | ⟨_, rfl, he⟩ | ⟨_, rfl, he⟩ | ⟨_, rfl, he⟩ |
    ⟨rfl, _, he⟩ | ⟨rfl, _, he⟩⟩ <;> simp only [he]
  · simp
  · simp
  · simp [hbyte, heos]
  · simp
  · simp
  · simp
  · simp [performCtClear_eq]
  · simp
  · simp
  · simp [performCtCommit_eq]
  · simp [performSetTotalLo]
  · simp [performSetTotalHi]
  · simp
  · simp

/-- Settles O40, by the cases of an FSM step: only EMIT writes `OUTQ` and `COUNT`. -/
theorem fsmStepsLeaveTableStagingAndTargetAlone : Obligations.FsmStepsLeaveTableStagingAndTargetAlone := by
  intro p b b' h
  obtain ⟨_, ⟨_, rfl⟩ | ⟨_, d, hm, _, rfl⟩ | ⟨_, _, _, _, rfl⟩ | ⟨_, _, _, _, rfl⟩ | ⟨_, _, _, _, rfl⟩⟩ := fsmStep_cases h
  · exact ⟨rfl, rfl, rfl, rfl, rfl, .inl ⟨rfl, rfl⟩⟩
  · exact ⟨rfl, rfl, rfl, rfl, rfl, .inr ⟨d, hm, rfl, rfl, rfl, rfl, rfl⟩⟩
  all_goals exact ⟨rfl, rfl, rfl, rfl, rfl, .inl ⟨rfl, rfl⟩⟩

/-- Settles O28: the four numbers of `STATE` are all its 2-bit values, and those of `ERR` are the ones listed. -/
theorem statusNumbersOfStatesAndErrors : Obligations.StatusNumbersOfStatesAndErrors := by
  refine ⟨fun n => ?_, ⟨rfl, rfl, rfl, rfl⟩, ⟨rfl, rfl, rfl, rfl, rfl, rfl, rfl⟩, fun e => ?_⟩
  · have hn : n = 0 ∨ n = 1 ∨ n = 2 ∨ n = 3 := by revert n; decide
    rcases hn with rfl | rfl | rfl | rfl
    · exact ⟨.idle, rfl⟩
    · exact ⟨.run, rfl⟩
    · exact ⟨.done, rfl⟩
    · exact ⟨.error, rfl⟩
  · cases e <;> decide

end Sys2Proof.Machine
end

/-! PROOFS. Proofs/Memory.lean: the statements of 20_memory.md. The rebuilt tree is described once, by its nodes and its symbols
(`descend_buildTree_ne_absent`, `symbol_descend_buildTree`); its order, its agreement with the table view and its leaves follow from them. -/

namespace Sys2Proof.Machine

/-! ### The host's turns (R36, R79, R83) -/

/-- Settles O7: the host is about to issue the word. -/
theorem commandTurnRunsTheNextWord : Obligations.CommandTurnRunsTheNextWord := by
  intro s w ws ts hturns hcmds
  have hs : s = State.aboutTo (.command w) { s with host := { s.host with turns := ts, cmds := ws } } := by
    simp [State.aboutTo, ← hturns, ← hcmds]
  rw [hs]
  exact step_aboutTo_command _ w

/-- A token the block does not accept has no effect (R79). -/
theorem blockEffect_token_not_ready (p : Params) (t : Token) {b : Block} (h : inReady b = false) :
    blockEffect p (decodeToken t) b = b := by
  unfold decodeToken
  split <;> simp [blockEffect, h]

/-- The token placed first stays with the host where the block does not accept it: only the turn is used up (R79). -/
theorem step_aboutTo_token_not_ready {s : State} (t : Token) (h : inReady s.block = false) :
    step (s.aboutTo (.token t)) = .next { s with host := { s.host with tokens := t :: s.host.tokens } } := by
  simp [step, stepOnce, takeTurn, tokenTurn, State.aboutTo, State.withTurns, h, exec_eq, blockEffect_token_not_ready]

/-- Settles O8: the host is about to offer the token, and `in_ready` decides. -/
theorem tokenTurnOffersTheNextToken : Obligations.TokenTurnOffersTheNextToken := by
  intro s t rest ts hturns htokens
  have hs : s = State.aboutTo (.token t) { s with host := { s.host with turns := ts, tokens := rest } } := by
    simp [State.aboutTo, ← hturns, ← htokens]
  refine ⟨fun hr => ?_, fun hr => ?_⟩
  · exact (congrArg step hs).trans (step_aboutTo_token t hr)
  · refine (congrArg step hs).trans ((step_aboutTo_token_not_ready t ?_).trans ?_)
    · exact hr
    · simp [htokens]

/-! ### Commands issued twice (R36) -/

/-- Writing the entry a symbol already has leaves the table as it is (R19). -/
theorem write_of_read_eq {t : Table} (ht : Table.wf t) {d : Byte} {e : Entry} (he : e ≠ .invalid) (hread : Table.read t d = e) :
    Table.write t d e = t := by
  refine tablesWithTheSameEntriesAreEqual _ _ (wf_write ht d e) ht fun x => ?_
  rw [read_write t d x e he]
  split
  · next hx => rw [hx, hread]
  · rfl

theorem setLowHalf_twice (imm : BitVec 16) (n : BitVec 32) : setLowHalf imm (setLowHalf imm n) = setLowHalf imm n :=
  congrArg (fun hi : BitVec 16 => (hi ++ imm : BitVec 32)) BitVec.extractLsb'_append_eq_left

theorem setHighHalf_twice (imm : BitVec 16) (n : BitVec 32) : setHighHalf imm (setHighHalf imm n) = setHighHalf imm n :=
  congrArg (fun lo : BitVec 16 => (imm ++ lo : BitVec 32)) BitVec.extractLsb'_append_eq_right

/-- Where a command performs, and leaves the block in `IDLE` or `DONE`, a second one performs too (R56). -/
theorem gate_twice {b : Block} {perform : Block → Block} (h : Configurable b) (hstate : (perform b).state = b.state)
    (htwice : perform (perform b) = perform b) :
    gate false false perform (gate false false perform b) = gate false false perform b := by
  have h' : Configurable (perform b) := by rwa [Configurable, hstate]
  rw [gate_of_configurable h, gate_of_configurable h', htwice]

/-- Settles O23: the second command writes what the first has written. -/
theorem repeatedCommandsAreIdempotent : Obligations.RepeatedCommandsAreIdempotent := by
  intro s hc hwf
  refine ⟨fun i hi => ?_, fun sym hread => ?_⟩
  · have htwice : blockEffect s.params i (blockEffect s.params i s.block) = blockEffect s.params i s.block := by
      rcases hi with rfl | rfl | ⟨imm, rfl⟩ | ⟨imm, rfl⟩
      · rfl
      · exact gate_twice hc rfl rfl
      · exact gate_twice hc rfl (congrArg (fun n => { s.block with total := n }) (setLowHalf_twice imm _))
      · exact gate_twice hc rfl (congrArg (fun n => { s.block with total := n }) (setHighHalf_twice imm _))
    simp only [issue_cons, htwice]
  · have hwrite := write_of_read_eq hwf (stagedEntry_ne s.block) hread
    rw [exec_eq, blockEffect, gate_of_configurable hc, performCtCommit, hwrite]
    rfl

/-! ### The rebuilt tree (R37) -/

@[simp] theorem buildTree_nil : buildTree [] = Tree.emptyRoot := rfl

/-- The last entry of the list is inserted last (R37). -/
theorem buildTree_concat (l : List (Byte × BitString)) (e : Byte × BitString) :
    buildTree (l ++ [e]) = Tree.insert e.1 e.2 (buildTree l) := by
  simp [buildTree]

theorem descend_emptyRoot_ne_absent (p : BitString) : Tree.emptyRoot.descend p ≠ .absent ↔ p = [] := by
  cases p with
  | nil => simp [Tree.emptyRoot]
  | cons b p => simp [Tree.emptyRoot, descend_cons, Tree.child]

theorem symbol_descend_emptyRoot (p : BitString) : (Tree.emptyRoot.descend p).symbol = none := by
  cases p with
  | nil => rfl
  | cons b p => simp [Tree.emptyRoot, descend_cons, Tree.child, Tree.symbol]

/-- The nodes of the rebuilt tree are the root and the paths that begin some entry's code (R37). -/
theorem descend_buildTree_ne_absent (l : List (Byte × BitString)) (p : BitString) :
    (buildTree l).descend p ≠ .absent ↔ p = [] ∨ ∃ e ∈ l, p <+: e.2 := by
  induction l using List.reverseRecOn with
  | nil => simpa using descend_emptyRoot_ne_absent p
  | append_singleton l e ih =>
    rw [buildTree_concat, descend_insert_ne_absent, ih]
    simp only [List.mem_append, List.mem_singleton, or_and_right, exists_or, exists_eq_left, or_assoc]

/-- Where the codes are distinct, the symbols of the rebuilt tree are the entries' symbols, each at its own code (R37). -/
theorem symbol_descend_buildTree {l : List (Byte × BitString)} (hl : (l.map fun e => e.2).Nodup) (p : BitString) (d : Byte) :
    ((buildTree l).descend p).symbol = some d ↔ (d, p) ∈ l := by
  induction l using List.reverseRecOn with
  | nil => simp [symbol_descend_emptyRoot]
  | append_singleton l e ih =>
    obtain ⟨k, c⟩ := e
    rw [List.map_append, List.nodup_append] at hl
    obtain ⟨hl, -, hne⟩ := hl
    rw [buildTree_concat, symbol_descend_insert, List.mem_append, List.mem_singleton, Prod.mk.injEq]
    split
    · next hp =>
      obtain rfl : p = c := hp
      have hnew : (d, p) ∉ l := fun hm => hne p (List.mem_map_of_mem hm) p (by simp) rfl
      simp [hnew, eq_comm]
    · next hp => simp [hp, ih hl]

/-- Settles O37: two orders of the entries give the same nodes and the same symbols. -/
theorem treeDoesNotDependOnEntryOrder : Obligations.TreeDoesNotDependOnEntryOrder := by
  intro l m hperm hl
  have hm : (m.map fun e => e.2).Nodup := (hperm.map _).nodup_iff.1 hl
  refine tree_ext _ _ fun p => ⟨?_, Option.ext fun d => ?_⟩
  · simp only [descend_buildTree_ne_absent, hperm.mem_iff]
  · rw [symbol_descend_buildTree hl, symbol_descend_buildTree hm, hperm.mem_iff]

/-- The codes of a conflict-free table are distinct (R38). -/
theorem codes_nodup_of_conflictFree {t : Table} (h : conflictFree t = true) : ((validCodes t).map fun e => e.2).Nodup := by
  refine List.pairwise_map.2 (((apart_iff _).1 h).imp fun {a b} hap heq => hap.1 ?_)
  rw [show a.2 = b.2 from heq]

/-- Settles O35: the tree is rebuilt from the valid codes. -/
theorem rebuiltTreeHasTheNodesOfTheTable : Obligations.RebuiltTreeHasTheNodesOfTheTable := by
  refine fun t p => ⟨?_, fun h => Option.ext fun d => ?_⟩
  · rw [descend_buildTree_ne_absent, isNode_iff]
  · rw [symbol_descend_buildTree (codes_nodup_of_conflictFree h), matchSym_some_iff h]

/-! ### Leaves (R37) -/

theorem Tree.isLeaf_iff (t : Tree) : t.isLeaf = true ↔ t ≠ .absent ∧ ∀ b, t.child b = .absent := by
  cases t with
  | absent => simp [Tree.isLeaf]
  | node x l r => cases l <;> cases r <;> simp [Tree.isLeaf, Tree.child]

/-- The parent of a node has a child (R37). -/
theorem hasChild_of_isNode_snoc {t : Table} {p : BitString} {b : Bool} (h : isNode t (p ++ [b]) = true) : hasChild t p = true := by
  obtain hnil | ⟨e, he, hpre⟩ := (isNode_iff _ _).1 h
  · simp at hnil
  · refine (hasChild_iff _ _).2 ⟨e, he, (List.prefix_append p [b]).trans hpre, fun heq => ?_⟩
    simpa [← heq] using hpre.length_le

/-- In a conflict-free table no valid code goes on below another one (R38). -/
theorem hasChild_eq_false_of_mem_validCodes {t : Table} (h : conflictFree t = true) {d : Byte} {p : BitString}
    (hd : (d, p) ∈ validCodes t) : hasChild t p = false := by
  refine Bool.eq_false_iff.2 fun hchild => ?_
  obtain ⟨e, he, hpre, hne⟩ := (hasChild_iff _ _).1 hchild
  exact hne (congrArg Prod.snd (prefix_unique h hd he hpre))

/-- Settles O36: the matched path is a valid code, so it is a node without children. -/
theorem matchedNodesAreLeaves : Obligations.MatchedNodesAreLeaves := by
  intro t p h hmatch
  obtain ⟨d, hd⟩ := Option.ne_none_iff_exists'.1 hmatch
  have hmem := (matchSym_some_iff h).1 hd
  have hchild := hasChild_eq_false_of_mem_validCodes h hmem
  have hnode : ∀ q, (buildTree (validCodes t)).descend q ≠ .absent ↔ isNode t q = true :=
    fun q => (rebuiltTreeHasTheNodesOfTheTable t q).1
  refine ⟨hchild, (Tree.isLeaf_iff _).2 ⟨(hnode p).2 ((isNode_iff _ _).2 (.inr ⟨_, hmem, List.prefix_rfl⟩)), fun b => ?_⟩⟩
  by_contra hb
  have hb' : isNode t (p ++ [b]) = true := (hnode _).1 (by rwa [descend_append, descend_cons, descend_nil])
  simp [hasChild_of_isNode_snoc hb'] at hchild

/-! ### The check of the table (R38) -/

/-- In a conflict-free table in canonical form, the symbols of two valid codes are equal when one code begins the other. -/
theorem eq_of_code_prefix {t : Table} (ht : Table.wf t) (h : conflictFree t = true) {a b : Byte} (ha : (Table.read t a).v = true)
    (hb : (Table.read t b).v = true) (hpre : (Table.read t a).code <+: (Table.read t b).code) : a = b :=
  congrArg Prod.fst (prefix_unique h ((mem_validCodes ht).2 ⟨ha, rfl⟩) ((mem_validCodes ht).2 ⟨hb, rfl⟩) hpre)

/-- Settles O38: the list that the check goes through holds each valid symbol once. -/
theorem conflictFreeIsThePrefixCodeProperty : Obligations.ConflictFreeIsThePrefixCodeProperty := by
  refine fun t ht => ⟨⟨fun h a b hne ha hb hpre => hne (eq_of_code_prefix ht h ha hb hpre), fun h => ?_⟩,
    fun h a b ha hnil hb => (eq_of_code_prefix ht h ha hb (hnil ▸ List.nil_prefix)).symm⟩
  refine (apart_iff _).2 ((validCodes_pairwise ht).imp_of_mem fun {x y} hx hy hlt => ?_)
  obtain ⟨hxv, hxc⟩ := (mem_validCodes ht).1 hx
  obtain ⟨hyv, hyc⟩ := (mem_validCodes ht).1 hy
  have hne : x.1 ≠ y.1 := fun heq => by simp [heq] at hlt
  rw [← hxc, ← hyc]
  exact ⟨h _ _ hne hxv hyv, h _ _ hne.symm hyv hxv⟩

/-! ### The table during a decode (R40, R91, R104) -/

/-- In `RUN` no instruction writes the table, TOTAL or the staging register: a command that would raises BUSY (R91). -/
theorem blockEffect_frame_of_run (p : Params) (i : Instr) {b : Block} (h : b.state = .run) :
    (blockEffect p i b).ct = b.ct ∧ (blockEffect p i b).total = b.total ∧ (blockEffect p i b).stg = b.stg ∧
      (blockEffect p i b).stgLen = b.stgLen := by
  rcases effect_cases p i b with he | ⟨_, _, _, he⟩ | ⟨_, _, he, _⟩ | ⟨_, he⟩ | ⟨_, ⟨_, _, he⟩ | ⟨_, he⟩⟩ | ⟨hc, _⟩
  rotate_right
  · exact absurd hc (not_configurable_of_run h)
  all_goals rw [he]; exact ⟨rfl, rfl, rfl, rfl⟩

/-- Settles O41, by the cases of a step. -/
theorem tableIsFixedDuringADecode : Obligations.TableIsFixedDuringADecode := by
  intro s s' h hr hreset
  rcases step_cases h with ⟨b, hf, _, rfl⟩ | ⟨_, _, _, _, rfl⟩ | ⟨_, _, _, _, _, rfl⟩ | ⟨_, _, _, _, rfl⟩ | ⟨ht, rfl⟩ | ⟨_, _, rfl⟩
  · obtain ⟨htotal, hct, hstg, hlen, _⟩ := fsmStepsLeaveTableStagingAndTargetAlone _ _ _ hf
    exact ⟨hct, htotal, hstg, hlen⟩
  · exact blockEffect_frame_of_run _ _ hr
  · exact blockEffect_frame_of_run _ _ hr
  · exact ⟨rfl, rfl, rfl, rfl⟩
  · exact absurd ht hreset
  · exact ⟨rfl, rfl, rfl, rfl⟩

/-! ### The packed payload (R31, R34, R42) -/

/-- A string padded with zeros, bit by bit. -/
theorem getElem_append_replicate_false (p : BitString) (n i : Nat) (h : i < (p ++ List.replicate n false).length) :
    (p ++ List.replicate n false)[i] = p.getD i false := by
  rw [List.getElem_append]
  split
  · next hi => simp [hi]
  · next hi => rw [List.getElem_replicate, List.getD_eq_default _ _ (Nat.le_of_not_lt hi)]

/-- The byte of at most 8 bits laid left-aligned is those bits, then zeros (R31). -/
theorem byteBits_alignLeft {p : BitString} (hp : p.length ≤ 8) :
    byteBits (BitVec.ofNat 8 (alignLeft 8 p)) = p ++ List.replicate (8 - p.length) false := by
  refine List.ext_getElem (by simp [hp]) fun i hi _ => ?_
  have hi8 : i < 8 := by simpa using hi
  rw [getElem_append_replicate_false, ← testBit_alignLeft p 8 hp i hi8]
  simp only [byteBits, List.getElem_map, List.getElem_range, BitVec.getLsbD_ofNat, show 7 - i < 8 by omega, decide_true,
    Bool.true_and, Nat.reduceSub]

@[simp] theorem packBits_nil : packBits [] = [] := rfl

/-- Packing a non-empty string packs its first 8 bits, then what remains (R42). -/
theorem packBits_cons {c : BitString} (hc : c ≠ []) :
    packBits c = BitVec.ofNat 8 (alignLeft 8 (c.take 8)) :: packBits (c.drop 8) := by
  simp [packBits, chunksOf_cons 8 (by omega) c hc]

/-- Settles O54, by induction on the length: a string of at most 8 bits is one padded byte, and a longer one starts with a full byte. -/
theorem packedPayloadHoldsTheCodesInOrder : Obligations.PackedPayloadHoldsTheCodesInOrder := by
  intro c
  induction hn : c.length using Nat.strong_induction_on generalizing c with
  | _ n ih =>
    subst hn
    by_cases hc : c = []
    · exact ⟨0, by omega, by simp [hc], by simp [hc]⟩
    have hpos : 0 < c.length := List.length_pos_iff.2 hc
    have hbyte := byteBits_alignLeft (List.length_take_le 8 c)
    by_cases h8 : c.length ≤ 8
    · rw [List.take_of_length_le h8] at hbyte
      have hpack : packBits c = [BitVec.ofNat 8 (alignLeft 8 c)] := by
        rw [packBits_cons hc, List.take_of_length_le h8, List.drop_of_length_le h8, packBits_nil]
      refine ⟨8 - c.length, by omega, by simp [hpack, hbyte], ?_⟩
      rw [hpack, List.length_singleton]
      omega
    · obtain ⟨pad, hpad, hbits, hlen⟩ := ih (c.drop 8).length (by rw [List.length_drop]; omega) (c.drop 8) rfl
      have hfull : 8 - (c.take 8).length = 0 := by rw [List.length_take]; omega
      rw [hfull, List.replicate_zero, List.append_nil] at hbyte
      refine ⟨pad, hpad, ?_, ?_⟩
      · rw [packBits_cons hc, List.flatMap_cons, hbyte, hbits, ← List.append_assoc, List.take_append_drop]
      · rw [packBits_cons hc, List.length_cons, hlen, List.length_drop]
        omega

end Sys2Proof.Machine

/-! PROOFS. Proofs/Encoding.lean: the statements of 30_encoding.md. The decoder is read once by opcode; whatever it reads is illegal or the
command whose word it was given (`decodeCommand_cases`), and the rows of R49 are read through the fields their masks select
(`field_of_masked`). CT_ENTRY is the staging of its chunks, one after another (`issue_ctPush_chunks`). -/

namespace Sys2Proof.Machine

/-! ### Tokens (R50) -/

/-- Settles O5: the decoder tests bit 8. -/
theorem tokenBitEightIsTheSentinel : Obligations.TokenBitEightIsTheSentinel :=
  fun t => ⟨fun h => by simp [decodeToken, h], fun h => by simp [decodeToken, h]⟩

theorem decodeToken_byteToken (d : Byte) : decodeToken (byteToken d) = .inByte d := by
  rw [(tokenBitEightIsTheSentinel _).1 (byteToken_eos d), byteToken_data]

/-- A token with bit 8 clear is the token of its `DATA`. -/
theorem byteToken_extractLsb' {t : Token} (h : t[8] = false) : byteToken (t.extractLsb' 0 8) = t := by
  have hbit : t.extractLsb' 8 1 = 0#1 := by
    ext j hj
    obtain rfl : j = 0 := by omega
    simpa using h
  rw [byteToken, ← hbit]
  exact BitVec.extractLsb'_append_extractLsb' (w := 1)

/-! ### The decoder by opcode (R49, R52) -/

section
variable {w : CommandWord}

theorem decodeCommand_nop_opcode (h : w.extractLsb' 24 8 = 0x00#8) :
    decodeCommand w = if reservedZ w then .nop else .illegal w := by simp [decodeCommand, h]

theorem decodeCommand_ctClear_opcode (h : w.extractLsb' 24 8 = 0x01#8) :
    decodeCommand w = if reservedZ w then .ctClear else .illegal w := by simp [decodeCommand, h]

theorem decodeCommand_ctPush_opcode (h : w.extractLsb' 24 8 = 0x02#8) :
    decodeCommand w = if reservedP w then .ctPush (pushBits w) else .illegal w := by simp [decodeCommand, h]

theorem decodeCommand_ctCommit_opcode (h : w.extractLsb' 24 8 = 0x03#8) :
    decodeCommand w = if reservedS w then .ctCommit (w.extractLsb' 0 8) else .illegal w := by simp [decodeCommand, h]

theorem decodeCommand_setTotalLo_opcode (h : w.extractLsb' 24 8 = 0x04#8) :
    decodeCommand w = if reservedI w then .setTotalLo (w.extractLsb' 0 16) else .illegal w := by simp [decodeCommand, h]

theorem decodeCommand_setTotalHi_opcode (h : w.extractLsb' 24 8 = 0x05#8) :
    decodeCommand w = if reservedI w then .setTotalHi (w.extractLsb' 0 16) else .illegal w := by simp [decodeCommand, h]

theorem decodeCommand_start_opcode (h : w.extractLsb' 24 8 = 0x06#8) :
    decodeCommand w = if reservedZ w then .start else .illegal w := by simp [decodeCommand, h]

theorem decodeCommand_abort_opcode (h : w.extractLsb' 24 8 = 0x07#8) :
    decodeCommand w = if reservedZ w then .abort else .illegal w := by simp [decodeCommand, h]

theorem decodeCommand_unassigned_opcode (h : 8 ≤ (w.extractLsb' 24 8).toNat) : decodeCommand w = .illegal w := by
  unfold decodeCommand
  split
  case h_9 => rfl
  all_goals omega

end

/-- An opcode is one of the eight assigned ones or unassigned (R49). -/
theorem opcode_cases (op : BitVec 8) :
    op = 0x00#8 ∨ op = 0x01#8 ∨ op = 0x02#8 ∨ op = 0x03#8 ∨ op = 0x04#8 ∨ op = 0x05#8 ∨ op = 0x06#8 ∨ op = 0x07#8 ∨
      8 ≤ op.toNat := by bv_omega

/-! ### Words with zero reserved bits (R44) -/

section
variable {w : CommandWord} {op : BitVec 8}

theorem wordZ_eq (hop : w.extractLsb' 24 8 = op) (hres : reservedZ w = true) : op ++ 0#24 = w := by
  conv_rhs => rw [word_eq_fieldsZ w, hop, beq_iff_eq.1 hres]
  rfl

theorem wordS_eq (hop : w.extractLsb' 24 8 = op) (hres : reservedS w = true) : op ++ 0#16 ++ w.extractLsb' 0 8 = w := by
  conv_rhs => rw [word_eq_fieldsS w, hop, beq_iff_eq.1 hres]
  rfl

theorem wordI_eq (hop : w.extractLsb' 24 8 = op) (hres : reservedI w = true) : op ++ 0#8 ++ w.extractLsb' 0 16 = w := by
  conv_rhs => rw [word_eq_fieldsI w, hop, beq_iff_eq.1 hres]
  rfl

end

/-! ### The fields of format P (R44, R45) -/

section
variable (op : BitVec 8) (z k : BitVec 4) (x : BitVec 16)

theorem opcode_of_fieldsP : (op ++ z ++ k ++ x : BitVec 32).extractLsb' 24 8 = op :=
  (BitVec.extractLsb'_append_eq_of_le (by decide)).trans
    ((BitVec.extractLsb'_append_eq_of_le (by decide)).trans BitVec.extractLsb'_append_eq_left)

theorem reserved_of_fieldsP : (op ++ z ++ k ++ x : BitVec 32).extractLsb' 20 4 = z :=
  (BitVec.extractLsb'_append_eq_of_le (by decide)).trans
    ((BitVec.extractLsb'_append_eq_of_le (by decide)).trans BitVec.extractLsb'_append_eq_right)

theorem k_of_fieldsP : (op ++ z ++ k ++ x : BitVec 32).extractLsb' 16 4 = k :=
  (BitVec.extractLsb'_append_eq_of_le (by decide)).trans BitVec.extractLsb'_append_eq_right

theorem bit_of_fieldsP {j : Nat} (hj : j < 16) : (op ++ z ++ k ++ x : BitVec 32).getLsbD j = x.getLsbD j :=
  BitVec.getLsbD_append.trans (if_pos hj)

end

/-- The reserved bits of format P, as fields. -/
theorem reservedP_iff (w : CommandWord) :
    reservedP w = true ↔ w.extractLsb' 20 4 = 0 ∧ w.extractLsb' 0 (15 - pushK w) = 0 := by
  rw [reservedP, Bool.and_eq_true, beq_iff_eq, beq_iff_eq, ← BitVec.toNat_inj (x := w.extractLsb' 0 _),
    BitVec.extractLsb'_toNat, Nat.shiftRight_zero]
  rfl

theorem pushK_lt (w : CommandWord) : pushK w < 16 := (w.extractLsb' 16 4).isLt

@[simp] theorem length_pushBits (w : CommandWord) : (pushBits w).length = pushK w + 1 := by simp [pushBits]

/-! ### `encode_push` and `push_bits` are inverse (R45) -/

section
variable {p : BitString}

theorem pushK_encodePush (hp : p.length ≤ 16) : pushK (encodePush p) = p.length - 1 := by
  rw [pushK, encodePush, k_of_fieldsP, BitVec.toNat_ofNat]
  omega

theorem bit_encodePush (hp : p.length ≤ 16) {j : Nat} (hj : j < 16) :
    (encodePush p).getLsbD j = p.getD (15 - j) false := by
  rw [encodePush, bit_of_fieldsP _ _ _ _ hj, BitVec.getLsbD_ofNat, testBit_alignLeft' p 16 hp j hj]
  simp [hj]

theorem reservedP_encodePush (hpos : 1 ≤ p.length) (hp : p.length ≤ 16) : reservedP (encodePush p) = true := by
  refine (reservedP_iff _).2 ⟨reserved_of_fieldsP .., BitVec.eq_of_getLsbD_eq fun j hj => ?_⟩
  rw [pushK_encodePush hp] at hj
  rw [BitVec.getLsbD_extractLsb', Nat.zero_add, bit_encodePush hp (by omega), List.getD_eq_default _ _ (by omega)]
  simp

theorem pushBits_encodePush (hpos : 1 ≤ p.length) (hp : p.length ≤ 16) : pushBits (encodePush p) = p := by
  refine List.ext_getElem ?_ fun i hi hi' => ?_
  · rw [length_pushBits, pushK_encodePush hp]
    omega
  · simp only [pushBits, List.getElem_map, List.getElem_range]
    rw [bit_encodePush hp (by omega), show 15 - (15 - i) = i by omega, List.getD_eq_getElem _ _ hi']

theorem decodeCommand_encodePush (hpos : 1 ≤ p.length) (hp : p.length ≤ 16) : decodeCommand (encodePush p) = .ctPush p := by
  have hop : (encodePush p).extractLsb' 24 8 = 0x02#8 := opcode_of_fieldsP ..
  rw [decodeCommand_ctPush_opcode hop, if_pos (reservedP_encodePush hpos hp), pushBits_encodePush hpos hp]

end

/-- The pushed bits laid left-aligned are `BITS`, when the bits below them are zero. -/
theorem alignLeft_pushBits {w : CommandWord} (hlow : w.extractLsb' 0 (15 - pushK w) = 0) :
    BitVec.ofNat 16 (alignLeft 16 (pushBits w)) = w.extractLsb' 0 16 := by
  have hlen : (pushBits w).length ≤ 16 := by rw [length_pushBits]; exact pushK_lt w
  refine BitVec.eq_of_getLsbD_eq fun j hj => ?_
  rw [BitVec.getLsbD_ofNat, testBit_alignLeft' _ 16 hlen j hj, BitVec.getLsbD_extractLsb', Nat.zero_add]
  by_cases hpushed : 15 - pushK w ≤ j
  · rw [List.getD_eq_getElem _ _ (by rw [length_pushBits]; omega)]
    simp [pushBits, hj, show 15 - (15 - j) = j by omega]
  · have hzero : w.getLsbD j = false := by
      simpa [show j < 15 - pushK w by omega] using congrArg (fun x => x.getLsbD j) hlow
    rw [List.getD_eq_default _ _ (by rw [length_pushBits]; omega), hzero]

theorem encodePush_pushBits {w : CommandWord} (hop : w.extractLsb' 24 8 = 0x02#8) (hres : reservedP w = true) :
    encodePush (pushBits w) = w := by
  obtain ⟨hz, hlow⟩ := (reservedP_iff w).1 hres
  have hk : BitVec.ofNat 4 (pushK w) = w.extractLsb' 16 4 := (BitVec.ofNat_toNat ..).trans (BitVec.setWidth_eq _)
  conv_rhs => rw [word_eq_fieldsP w, hop, hz]
  rw [encodePush, alignLeft_pushBits hlow, length_pushBits, Nat.add_sub_cancel, hk]
  rfl

/-! ### Whatever is decoded is illegal or the word's own command (R52) -/

/-- What the encoder gives for an instruction stands where R49 and R50 put it. -/
theorem encodedWord : ∀ i : Instr, Laws.EncodedWord.Statement i
  | .nop => Laws.EncodedWord.nop
  | .ctClear => Laws.EncodedWord.ctClear
  | .ctPush bits => Laws.EncodedWord.ctPush bits
  | .ctCommit sym => Laws.EncodedWord.ctCommit sym
  | .setTotalLo imm => Laws.EncodedWord.setTotalLo imm
  | .setTotalHi imm => Laws.EncodedWord.setTotalHi imm
  | .start => Laws.EncodedWord.start
  | .abort => Laws.EncodedWord.abort
  | .inByte data => Laws.EncodedWord.inByte data
  | .inEos => Laws.EncodedWord.inEos
  | .illegal w => Laws.EncodedWord.illegal w

/-- `w` is the word of the command `i`. -/
structure WordOf (i : Instr) (w : CommandWord) : Prop where
  wellFormed : i.wellFormed = true
  legal : ∀ v, i ≠ .illegal v
  encoded : encode i = .command w

theorem WordOf.isCommandWord {i : Instr} {w : CommandWord} (h : WordOf i w) : isCommandWord w = true := by
  have hrow := encodedWord i h.wellFormed
  rw [h.encoded] at hrow
  exact hrow.2 h.legal

/-- Under an assigned opcode. -/
theorem illegal_or_wordOf {i : Instr} {w : CommandWord} {reserved : Bool}
    (h : decodeCommand w = if reserved then i else .illegal w) (hi : reserved = true → WordOf i w) :
    decodeCommand w = .illegal w ∨ WordOf (decodeCommand w) w := by
  cases reserved with
  | false => exact .inl h
  | true => exact .inr (h ▸ hi rfl)

theorem decodeCommand_cases (w : CommandWord) : decodeCommand w = .illegal w ∨ WordOf (decodeCommand w) w := by
  rcases opcode_cases (w.extractLsb' 24 8) with h | h | h | h | h | h | h | h | h
  · exact illegal_or_wordOf (decodeCommand_nop_opcode h) fun hr => ⟨rfl, nofun, congrArg _ (wordZ_eq h hr)⟩
  · exact illegal_or_wordOf (decodeCommand_ctClear_opcode h) fun hr => ⟨rfl, nofun, congrArg _ (wordZ_eq h hr)⟩
  · refine illegal_or_wordOf (decodeCommand_ctPush_opcode h) fun hr => ⟨?_, nofun, congrArg _ (encodePush_pushBits h hr)⟩
    have hK := pushK_lt w
    simp only [Instr.wellFormed, length_pushBits, Bool.and_eq_true, decide_eq_true_eq]
    omega
  · exact illegal_or_wordOf (decodeCommand_ctCommit_opcode h) fun hr => ⟨rfl, nofun, congrArg _ (wordS_eq h hr)⟩
  · exact illegal_or_wordOf (decodeCommand_setTotalLo_opcode h) fun hr => ⟨rfl, nofun, congrArg _ (wordI_eq h hr)⟩
  · exact illegal_or_wordOf (decodeCommand_setTotalHi_opcode h) fun hr => ⟨rfl, nofun, congrArg _ (wordI_eq h hr)⟩
  · exact illegal_or_wordOf (decodeCommand_start_opcode h) fun hr => ⟨rfl, nofun, congrArg _ (wordZ_eq h hr)⟩
  · exact illegal_or_wordOf (decodeCommand_abort_opcode h) fun hr => ⟨rfl, nofun, congrArg _ (wordZ_eq h hr)⟩
  · exact .inl (decodeCommand_unassigned_opcode h)

theorem decodeCommand_of_not_isCommandWord {w : CommandWord} (h : isCommandWord w = false) :
    decodeCommand w = .illegal w := by
  rcases decodeCommand_cases w with hi | hw
  · exact hi
  · exact absurd hw.isCommandWord (by simp [h])

/-- Settles O1, by the instruction: the fields of its encoding are its opcode, zero reserved bits and its operand. -/
theorem encodeThenDecodeIsIdentity : Obligations.EncodeThenDecodeIsIdentity := by
  intro i hi
  cases i with
  | nop => rfl
  | ctClear => rfl
  | ctPush bits =>
    simp only [Instr.wellFormed, Bool.and_eq_true, decide_eq_true_eq] at hi
    exact decodeCommand_encodePush hi.1 hi.2
  | ctCommit sym =>
    rw [encode, decode, decodeCommand_ctCommit_opcode (opcode_of_fieldsS ..), reservedS, reserved_of_fieldsS, sym_of_fieldsS]
    rfl
  | setTotalLo imm =>
    rw [encode, decode, decodeCommand_setTotalLo_opcode (opcode_of_fieldsI ..), reservedI, reserved_of_fieldsI, imm_of_fieldsI]
    rfl
  | setTotalHi imm =>
    rw [encode, decode, decodeCommand_setTotalHi_opcode (opcode_of_fieldsI ..), reservedI, reserved_of_fieldsI, imm_of_fieldsI]
    rfl
  | start => rfl
  | abort => rfl
  | inByte data => exact decodeToken_byteToken data
  | inEos => rfl
  | illegal w => exact decodeCommand_of_not_isCommandWord (by simpa [Instr.wellFormed] using hi)

/-! ### The rows of the opcode map (R49) -/

/-- A field that the mask selects whole is the pattern's field. -/
theorem field_of_masked {w mask pattern : CommandWord} (start len : Nat) (h : w &&& mask = pattern)
    (hmask : mask.extractLsb' start len = BitVec.allOnes len) :
    w.extractLsb' start len = pattern.extractLsb' start len := by
  rw [← h, BitVec.extractLsb'_and, hmask, BitVec.and_allOnes]

/-- The mask of a CT_PUSH row selects the opcode, the reserved bits and `K` whole. -/
theorem pushRow_mask : ∀ k < 16, (pushRow k).mask.extractLsb' 24 8 = BitVec.allOnes 8 ∧
    (pushRow k).mask.extractLsb' 20 4 = BitVec.allOnes 4 ∧ (pushRow k).mask.extractLsb' 16 4 = BitVec.allOnes 4 ∧
    (pushRow k).mask.extractLsb' 0 (15 - k) = BitVec.allOnes (15 - k) := by decide

/-- The pattern of a CT_PUSH row has the opcode, zero reserved bits and `K`. -/
theorem pushRow_pattern : ∀ k < 16, (pushRow k).pattern.extractLsb' 24 8 = 0x02#8 ∧
    (pushRow k).pattern.extractLsb' 20 4 = 0 ∧ ((pushRow k).pattern.extractLsb' 16 4).toNat = k ∧
    (pushRow k).pattern.extractLsb' 0 (15 - k) = 0 := by decide

section
variable {w : CommandWord}

theorem decodeCommand_nop_row (h : w &&& 0xFFFFFFFF = 0x00000000) : decodeCommand w = .nop := by
  rw [decodeCommand_nop_opcode (field_of_masked 24 8 h rfl), reservedZ, field_of_masked 0 24 h rfl]
  rfl

theorem decodeCommand_ctClear_row (h : w &&& 0xFFFFFFFF = 0x01000000) : decodeCommand w = .ctClear := by
  rw [decodeCommand_ctClear_opcode (field_of_masked 24 8 h rfl), reservedZ, field_of_masked 0 24 h rfl]
  rfl

theorem decodeCommand_ctPush_row {k : Nat} (hk : k < 16) (h : w &&& (pushRow k).mask = (pushRow k).pattern) :
    decodeCommand w = .ctPush ((List.range (k + 1)).map fun i => w.getLsbD (15 - i)) := by
  obtain ⟨hopM, hzM, hKM, hlowM⟩ := pushRow_mask k hk
  obtain ⟨hop, hz, hK, hlow⟩ := pushRow_pattern k hk
  have hpushK : pushK w = k := by rw [pushK, field_of_masked 16 4 h hKM, hK]
  have hres : reservedP w = true := by
    rw [reservedP_iff, hpushK]
    exact ⟨(field_of_masked 20 4 h hzM).trans hz, (field_of_masked 0 _ h hlowM).trans hlow⟩
  rw [decodeCommand_ctPush_opcode ((field_of_masked 24 8 h hopM).trans hop), if_pos hres, pushBits, hpushK]

theorem decodeCommand_ctCommit_row (h : w &&& 0xFFFFFF00 = 0x03000000) :
    decodeCommand w = .ctCommit (w.extractLsb' 0 8) := by
  rw [decodeCommand_ctCommit_opcode (field_of_masked 24 8 h rfl), reservedS, field_of_masked 8 16 h rfl]
  rfl

theorem decodeCommand_setTotalLo_row (h : w &&& 0xFFFF0000 = 0x04000000) :
    decodeCommand w = .setTotalLo (w.extractLsb' 0 16) := by
  rw [decodeCommand_setTotalLo_opcode (field_of_masked 24 8 h rfl), reservedI, field_of_masked 16 8 h rfl]
  rfl

theorem decodeCommand_setTotalHi_row (h : w &&& 0xFFFF0000 = 0x05000000) :
    decodeCommand w = .setTotalHi (w.extractLsb' 0 16) := by
  rw [decodeCommand_setTotalHi_opcode (field_of_masked 24 8 h rfl), reservedI, field_of_masked 16 8 h rfl]
  rfl

theorem decodeCommand_start_row (h : w &&& 0xFFFFFFFF = 0x06000000) : decodeCommand w = .start := by
  rw [decodeCommand_start_opcode (field_of_masked 24 8 h rfl), reservedZ, field_of_masked 0 24 h rfl]
  rfl

theorem decodeCommand_abort_row (h : w &&& 0xFFFFFFFF = 0x07000000) : decodeCommand w = .abort := by
  rw [decodeCommand_abort_opcode (field_of_masked 24 8 h rfl), reservedZ, field_of_masked 0 24 h rfl]
  rfl

/-- The word of a row is never illegal. -/
theorem decodeCommand_legal_of_row {r : OpcodeRow} (hr : r ∈ opcodeMap) (h : w &&& r.mask = r.pattern) (v : CommandWord) :
    decodeCommand w ≠ .illegal v := by
  simp only [opcodeMap, List.mem_append, List.mem_cons, List.mem_map, List.mem_range, List.not_mem_nil, or_false] at hr
  obtain ((rfl | rfl) | ⟨k, hk, rfl⟩) | rfl | rfl | rfl | rfl | rfl := hr
  · rw [decodeCommand_nop_row h]; nofun
  · rw [decodeCommand_ctClear_row h]; nofun
  · rw [decodeCommand_ctPush_row hk h]; nofun
  · rw [decodeCommand_ctCommit_row h]; nofun
  · rw [decodeCommand_setTotalLo_row h]; nofun
  · rw [decodeCommand_setTotalHi_row h]; nofun
  · rw [decodeCommand_start_row h]; nofun
  · rw [decodeCommand_abort_row h]; nofun

theorem not_isCommandWord_of_illegal {v : CommandWord} (h : decodeCommand w = .illegal v) : isCommandWord w = false := by
  rw [isCommandWord, List.any_eq_false]
  exact fun r hr htakes => decodeCommand_legal_of_row hr (beq_iff_eq.1 htakes) v h

end

/-! ### The statements -/

/-- Settles O2: what a word decodes to is illegal, with the word as it is, or the command whose word it is. -/
theorem decodeThenEncodeGivesTheWordBack : Obligations.DecodeThenEncodeGivesTheWordBack := by
  refine ⟨fun w => ?_, fun t h => ?_, fun t h => ?_, fun p => ?_⟩
  · rcases decodeCommand_cases w with hi | hw
    · rw [hi, encode]
    · exact hw.encoded
  · rw [(tokenBitEightIsTheSentinel t).1 h, encode, byteToken_extractLsb' h]
  · rw [(tokenBitEightIsTheSentinel t).2 h, encode]
  · cases p with
    | command w =>
      rcases decodeCommand_cases w with hi | hw
      · rw [decode, hi, Instr.wellFormed, not_isCommandWord_of_illegal hi, Bool.not_false]
      · exact hw.wellFormed
    | token t =>
      rw [decode, decodeToken]
      split <;> rfl

/-- Settles O3, row by row. -/
theorem decodingFollowsTheOpcodeMap : Obligations.DecodingFollowsTheOpcodeMap := fun _ =>
  ⟨decodeCommand_nop_row, decodeCommand_ctClear_row, fun _ => decodeCommand_ctPush_row, decodeCommand_ctCommit_row,
    decodeCommand_setTotalLo_row, decodeCommand_setTotalHi_row, decodeCommand_start_row, decodeCommand_abort_row,
    decodeCommand_of_not_isCommandWord⟩

/-- Settles O4: under each opcode the format's test of the reserved bits fails, and an illegal word is not kept (R56). -/
theorem reservedBitsAndUnassignedOpcodesAreIllegal : Obligations.ReservedBitsAndUnassignedOpcodesAreIllegal := by
  intro w
  refine ⟨fun hop hres => ?_, fun hop hres => ?_, fun hop hres => ?_, fun hop hres => ?_, decodeCommand_unassigned_opcode,
    fun _ _ => rfl⟩
  · have hZ : ¬ reservedZ w = true := mt beq_iff_eq.1 hres
    rcases hop with h | h | h | h
    · rw [decodeCommand_nop_opcode h, if_neg hZ]
    · rw [decodeCommand_ctClear_opcode h, if_neg hZ]
    · rw [decodeCommand_start_opcode h, if_neg hZ]
    · rw [decodeCommand_abort_opcode h, if_neg hZ]
  · have hP : ¬ reservedP w = true := by
      rw [reservedP, Bool.and_eq_true, beq_iff_eq, beq_iff_eq, not_and_or]
      exact hres
    rw [decodeCommand_ctPush_opcode hop, if_neg hP]
  · have hS : ¬ reservedS w = true := mt beq_iff_eq.1 hres
    rw [decodeCommand_ctCommit_opcode hop, if_neg hS]
  · have hI : ¬ reservedI w = true := mt beq_iff_eq.1 hres
    rcases hop with h | h
    · rw [decodeCommand_setTotalLo_opcode h, if_neg hI]
    · rw [decodeCommand_setTotalHi_opcode h, if_neg hI]

/-- Settles O6: the decoder is evaluated on each of the fourteen patterns. -/
theorem wordsOfTheSpecDecode : Obligations.WordsOfTheSpecDecode := by
  unfold Obligations.WordsOfTheSpecDecode
  decide

/-- Settles O60: the assembler is evaluated on each of the seven lines. -/
theorem assemblerLinesSpellTheirWords : Obligations.AssemblerLinesSpellTheirWords := by
  unfold Obligations.AssemblerLinesSpellTheirWords
  decide

/-! ### CT_ENTRY (R54) -/

@[simp] theorem stage_nil (b : Block) : stage [] b = b := by simp [stage]

@[simp] theorem stage_stage (p q : BitString) (b : Block) : stage q (stage p b) = stage (p ++ q) b := by
  simp [stage, BitVec.ofNat_add, BitVec.add_assoc]

/-- CT_PUSH within MAXLEN, where it performs (R56, R59). -/
theorem blockEffect_ctPush {p : Params} {b : Block} {bits : BitString} (hc : Configurable b)
    (h : b.stgLen.toNat + bits.length ≤ p.maxLen) : blockEffect p (.ctPush bits) b = stage bits b := by
  rw [blockEffect, gate_of_configurable hc]
  rcases performCtPush_cases p bits b with ⟨_, hstage⟩ | ⟨hover, _⟩
  · exact hstage
  · omega

/-- The CT_PUSH commands of a code stage the whole code. -/
theorem issue_ctPush_chunks {s : State} (hp : s.params.wf) (hc : Configurable s.block) (c : BitString)
    (h : s.block.stgLen.toNat + c.length ≤ s.params.maxLen) :
    issue ((chunksOf 16 c).map .ctPush) s = .next (s.onBlock (stage c)) := by
  induction hn : c.length using Nat.strong_induction_on generalizing s c with
  | _ n ih =>
    subst hn
    by_cases hnil : c = []
    · simp [hnil, issue, State.onBlock]
    have hpos : 0 < c.length := List.length_pos_iff.2 hnil
    have hfirst : s.block.stgLen.toNat + (c.take 16).length ≤ s.params.maxLen := by rw [List.length_take]; omega
    have hrest : (stage (c.take 16) s.block).stgLen.toNat + (c.drop 16).length ≤ s.params.maxLen := by
      rw [stage_stgLen_toNat hp hfirst, List.length_take, List.length_drop]
      omega
    have hshorter : (c.drop 16).length < c.length := by rw [List.length_drop]; omega
    have htail := ih _ hshorter (s := s.onBlock (stage (c.take 16))) hp hc _ hrest rfl
    rw [chunksOf_cons 16 (by omega) c hnil, List.map_cons, issue_cons, blockEffect_ctPush hc hfirst]
    refine htail.trans ?_
    simp [State.onBlock]

/-- Settles O56: the pushes stage the whole code, and the commit writes what is staged. -/
theorem ctEntryLoadsOneLine : Obligations.CtEntryLoadsOneLine := by
  intro s sym c hp hc hstg hlen hmax
  have hpush := issue_ctPush_chunks hp hc c (by simpa [hlen] using hmax)
  have hc' : Configurable (stage c s.block) := hc
  rw [ctEntry, issue_append _ hpush, issue_cons, issue, onBlock_block, blockEffect, gate_of_configurable hc',
    performCtCommit_eq]
  simp [State.onBlock, stage, hstg, hlen]

end Sys2Proof.Machine

/-! PROOFS. Proofs/TableCommands.lean: the statements of 40_table_commands.md. What R56 gives a gated command and the illegal variants of an
opcode is said once (`Gated`, `variantsAreIllegal`), and so are the errors a command can raise (`blockEffect_enters_error`).
LOAD_TABLE writes its lines one after another into the empty table (`issue_loadTable`), and what that table reads is the last line of each
symbol (`read_writeLines`). -/

namespace Sys2Proof.Machine

/-! ### Gating (R56) -/

/-- `i` is a legal command that performs in `IDLE` and `DONE` alone (R56). -/
def Gated (i : Instr) (perform : Params → Block → Block) : Prop :=
  ∀ p b, blockEffect p i b = gate false false (perform p) b

theorem ctClear_gated : Gated .ctClear fun _ => performCtClear := fun _ _ => rfl

theorem ctPush_gated (bits : BitString) : Gated (.ctPush bits) fun p => performCtPush p bits := fun _ _ => rfl

theorem ctCommit_gated (sym : Byte) : Gated (.ctCommit sym) fun _ => performCtCommit sym := fun _ _ => rfl

section
variable {i : Instr} {perform : Params → Block → Block} (h : Gated i perform)
include h

theorem Gated.performs {s : State} (hc : Configurable s.block) :
    exec i s = .next { s with block := perform s.params s.block } := by
  rw [exec_eq, h, gate_of_configurable hc]

theorem Gated.gatedOut : GatedOut i := by
  refine fun s => ⟨fun hr => ?_, fun he => ?_⟩
  · rw [exec_eq, h, gate_of_run hr, raise]
  · rw [exec_eq, h, gate_of_error he]

end

/-! ### Illegal variants (R48, R56) -/

theorem variantsAreIllegal {op : BitVec 8} {reservedSet : CommandWord → Prop}
    (h : ∀ w : CommandWord, w.extractLsb' 24 8 = op → reservedSet w → decodeCommand w = .illegal w) :
    VariantsAreIllegal op reservedSet := by
  refine fun w s hop hres => ⟨fun hs => ?_, fun hs => ?_⟩
  · rw [h w hop hres, exec_eq, blockEffect, if_neg hs, raise]
  · rw [h w hop hres, exec_eq, blockEffect, if_pos hs]

theorem formatZ_variantsAreIllegal {op : BitVec 8} (hop : op = 0 ∨ op = 1 ∨ op = 6 ∨ op = 7) :
    VariantsAreIllegal op fun w => w.extractLsb' 0 24 ≠ 0 :=
  variantsAreIllegal fun w hw hres => by
    obtain ⟨hZ, -⟩ := reservedBitsAndUnassignedOpcodesAreIllegal w
    exact hZ (hw ▸ hop) hres

/-! ### NOP, CT_CLEAR, CT_PUSH and CT_COMMIT (R57 to R60) -/

/-- Settles O11: NOP has no effect on the block. -/
theorem nopChangesNothing : Obligations.NopChangesNothing :=
  ⟨rfl, exec_eq .nop, formatZ_variantsAreIllegal (.inl rfl)⟩

/-- Settles O12: the cleared table has no valid code. -/
theorem ctClearEmptiesTableAndStaging : Obligations.CtClearEmptiesTableAndStaging :=
  ⟨rfl, fun _ hc => ctClear_gated.performs hc, ctClear_gated.gatedOut, formatZ_variantsAreIllegal (.inr (.inl rfl)), read_cleared,
    fun p => ⟨matchSym_none (by simp), by simp [isNode_iff]⟩⟩

/-- Settles O13: CT_PUSH stages or raises (`performCtPush_cases`), and no other command but CT_CLEAR and CT_COMMIT writes the staging
register (O39). -/
theorem ctPushStagesBitsOrRaisesCodeTooLong : Obligations.CtPushStagesBitsOrRaisesCodeTooLong := by
  refine ⟨fun bits => decodeCommand_encodePush, fun s bits hc => ?_, fun bits => (ctPush_gated bits).gatedOut,
    variantsAreIllegal fun w => ?_, ?_, fun _ _ hp hfits => stage_stgLen_toNat hp hfits⟩
  · rw [(ctPush_gated bits).performs hc]
    rcases performCtPush_cases s.params bits s.block with ⟨hfits, hb⟩ | ⟨hover, hb⟩
    · exact ⟨fun _ => by rw [hb, stage], fun hover => absurd hover (Nat.not_lt.2 hfits)⟩
    · exact ⟨fun hfits => absurd hover (Nat.not_lt.2 hfits), fun _ => by rw [hb, raise]⟩
  · obtain ⟨-, hP, -⟩ := reservedBitsAndUnassignedOpcodesAreIllegal w
    exact hP
  · intro i s s' h hpush hcommit hclear
    obtain ⟨-, -, -, -, -, -, -, hstaging, -⟩ := eachElementChangesOnlyByItsWriters i s s' h
    by_contra hne
    rcases hstaging (not_and_or.1 hne) with hi | ⟨bits, hi⟩ | ⟨sym, hi⟩
    · exact hclear hi
    · exact hpush bits hi
    · exact hcommit sym hi

/-- Settles O14: the staged entry is a valid one, so it is what the symbol reads after the write (`read_write`). -/
theorem ctCommitWritesOneEntry : Obligations.CtCommitWritesOneEntry := by
  refine ⟨fun s sym hc => (ctCommit_gated sym).performs hc, fun sym => encodeThenDecodeIsIdentity (.ctCommit sym) rfl,
    fun sym => (ctCommit_gated sym).gatedOut, variantsAreIllegal fun w => ?_,
    fun b sym d => read_write b.ct sym d _ (stagedEntry_ne b)⟩
  obtain ⟨-, -, hS, -⟩ := reservedBitsAndUnassignedOpcodesAreIllegal w
  exact hS

/-! ### The order of the errors (R94) -/

/-- In `ERROR` every instruction but ABORT is ignored (R56). -/
theorem blockEffect_of_error (p : Params) {i : Instr} {b : Block} (hs : b.state = .error) (hi : i ≠ .abort) :
    blockEffect p i b = b := by
  rcases effect_cases p i b with he | ⟨hne, _⟩ | ⟨hr, _⟩ | ⟨habort, _⟩ | ⟨hready, _⟩ | ⟨hc, _⟩
  · exact he
  · exact absurd hs hne
  · simp [hr] at hs
  · exact absurd habort hi
  · simp [((inReady_iff b).1 hready).1] at hs
  · exact absurd hs hc.ne_error

/-- All an instruction that leads into `ERROR` can have raised. -/
theorem blockEffect_enters_error {p : Params} {i : Instr} {b : Block} (hs : b.state ≠ .error)
    (h : (blockEffect p i b).state = .error) :
    (∃ w, i = .illegal w ∧ blockEffect p i b = raise .illegalCmd b) ∨
    (b.state = .run ∧ (∀ w, i ≠ .illegal w) ∧ blockEffect p i b = raise .busy b) ∨
    (Configurable b ∧ (∃ bits, i = .ctPush bits) ∧ blockEffect p i b = raise .codeTooLong b) ∨
    (Configurable b ∧ i = .start ∧ blockEffect p i b = raise .tableConflict b) := by
  rcases effect_cases p i b with he | ⟨_, w, hi, he⟩ | ⟨hr, hlegal, he, _⟩ | ⟨_, he⟩ | ⟨_, ⟨_, _, he⟩ | ⟨_, he⟩⟩ |
    ⟨hc, ⟨_, he⟩ | ⟨_, _, _, he⟩ | ⟨bits, hi, _, he⟩ | ⟨_, _, he⟩ | ⟨_, _, he⟩ | ⟨_, _, he⟩ | ⟨_, _, he⟩ | ⟨hi, _, he⟩⟩ <;>
    rw [he] at h
  · exact absurd h hs
  · exact .inl ⟨w, hi, he⟩
  · exact .inr (.inl ⟨hr, hlegal, he⟩)
  · exact absurd h nofun
  · exact absurd h hs
  · exact absurd h hs
  · exact absurd h hs
  · exact absurd h hs
  · exact .inr (.inr (.inl ⟨hc, ⟨bits, hi⟩, he⟩))
  · exact absurd h hs
  · exact absurd h hs
  · exact absurd h hs
  · exact absurd h nofun
  · exact .inr (.inr (.inr ⟨hc, hi, he⟩))

/-- Settles O21: each of the four ways into `ERROR` fixes the error raised. -/
theorem commandErrorsFollowTheFixedOrder : Obligations.CommandErrorsFollowTheFixedOrder := by
  refine ⟨fun i s hs hi => by rw [exec_eq, blockEffect_of_error _ hs hi], fun i s s' h hs hs' => ?_⟩
  obtain rfl := exec_next h
  obtain ⟨w, hi, he⟩ | ⟨hr, hlegal, he⟩ | ⟨hc, ⟨bits, rfl⟩, he⟩ | ⟨hc, rfl, he⟩ := blockEffect_enters_error hs hs'
  · exact ⟨fun _ _ => congrArg Block.err he, fun _ hlegal => absurd hi (hlegal w), fun _ hlegal => absurd hi (hlegal w)⟩
  · exact ⟨fun w hi => absurd hi (hlegal w), fun _ _ => congrArg Block.err he, fun hc => absurd hr hc.ne_run⟩
  · exact ⟨nofun, fun hr => absurd hr hc.ne_run, fun _ _ => .inl ⟨⟨bits, rfl⟩, congrArg Block.err he⟩⟩
  · exact ⟨nofun, fun hr => absurd hr hc.ne_run, fun _ _ => .inr ⟨rfl, congrArg Block.err he⟩⟩

/-! ### The last line of a symbol (R61) -/

section
variable {lines : List (Byte × BitString)} {d : Byte} {c : BitString}

@[simp] theorem lastLine_nil (d : Byte) : lastLine [] d = none := rfl

theorem lastLine_concat (lines : List (Byte × BitString)) (e : Byte × BitString) (d : Byte) :
    lastLine (lines ++ [e]) d = if e.1 = d then some e.2 else lastLine lines d := by
  by_cases h : e.1 = d <;> simp [lastLine, h]

/-- Where each symbol has one line, its last line is the one that names it. -/
theorem lastLine_eq_some_iff (h : (lines.map fun e => e.1).Nodup) : lastLine lines d = some c ↔ (d, c) ∈ lines := by
  induction lines using List.reverseRecOn with
  | nil => simp
  | append_singleton lines e ih =>
    obtain ⟨k, c'⟩ := e
    rw [List.map_append, List.nodup_append] at h
    obtain ⟨h, -, hne⟩ := h
    rw [lastLine_concat, List.mem_append, List.mem_singleton, Prod.mk.injEq]
    split
    · next hk =>
      obtain rfl : k = d := hk
      have hnew : (k, c) ∉ lines := fun hm => hne k (List.mem_map_of_mem hm) k (by simp) rfl
      simp [hnew, eq_comm]
    · next hk => simp [ih h, Ne.symm hk]

theorem lastLine_perm {other : List (Byte × BitString)} (hperm : lines.Perm other) (h : (lines.map fun e => e.1).Nodup) :
    lastLine lines d = lastLine other d := by
  have hother : (other.map fun e => e.1).Nodup := (hperm.map _).nodup_iff.1 h
  refine Option.ext fun c => ?_
  rw [lastLine_eq_some_iff h, lastLine_eq_some_iff hother, hperm.mem_iff]

end

/-! ### LOAD_TABLE (R54, R61) -/

/-- The entry that CT_ENTRY writes for a code (R54, R60). -/
def codeEntry (c : BitString) : Entry := { v := true, len := BitVec.ofNat 8 c.length, code := c }

theorem codeEntry_ne (c : BitString) : codeEntry c ≠ .invalid := by simp [codeEntry, Entry.invalid]

/-- The table after the entries of the lines have been written, one after another. -/
def writeLines (t : Table) (lines : List (Byte × BitString)) : Table :=
  lines.foldl (fun t e => Table.write t e.1 (codeEntry e.2)) t

@[simp] theorem writeLines_nil (t : Table) : writeLines t [] = t := rfl

theorem writeLines_concat (t : Table) (lines : List (Byte × BitString)) (e : Byte × BitString) :
    writeLines t (lines ++ [e]) = Table.write (writeLines t lines) e.1 (codeEntry e.2) := by
  simp [writeLines]

theorem wf_cleared : Table.wf Table.cleared := wf_nil

theorem wf_writeLines {t : Table} (ht : Table.wf t) (lines : List (Byte × BitString)) : Table.wf (writeLines t lines) := by
  induction lines using List.reverseRecOn with
  | nil => exact ht
  | append_singleton lines e ih => rw [writeLines_concat]; exact wf_write ih ..

/-- A symbol reads as its last line, and one without a line as before. -/
theorem read_writeLines (t : Table) (lines : List (Byte × BitString)) (d : Byte) :
    Table.read (writeLines t lines) d = ((lastLine lines d).map codeEntry).getD (Table.read t d) := by
  induction lines using List.reverseRecOn with
  | nil => rfl
  | append_singleton lines e ih =>
    rw [writeLines_concat, read_write _ _ _ _ (codeEntry_ne _), lastLine_concat, ih]
    by_cases h : e.1 = d <;> simp [h, eq_comm (a := d)]

theorem mem_validCodes_writeLines (lines : List (Byte × BitString)) (d : Byte) (c : BitString) :
    (d, c) ∈ validCodes (writeLines Table.cleared lines) ↔ lastLine lines d = some c := by
  rw [mem_validCodes (wf_writeLines wf_cleared lines), read_writeLines, read_cleared]
  cases lastLine lines d with
  | none => simp [Entry.invalid]
  | some c' => simp [codeEntry]

/-- Two lists of lines with the same last lines load the same table. -/
theorem writeLines_congr {lines other : List (Byte × BitString)} (h : ∀ d, lastLine lines d = lastLine other d) :
    writeLines Table.cleared lines = writeLines Table.cleared other :=
  tablesWithTheSameEntriesAreEqual _ _ (wf_writeLines wf_cleared _) (wf_writeLines wf_cleared _) fun d => by
    rw [read_writeLines, read_writeLines, h]

/-- With nothing staged, the CT_ENTRYs of the lines write their entries. -/
theorem issue_ctEntries {s : State} {lines : List (Byte × BitString)} (hp : s.params.wf) (hc : Configurable s.block)
    (hstg : s.block.stg = []) (hlen : s.block.stgLen = 0) (hmax : ∀ e ∈ lines, e.2.length ≤ s.params.maxLen) :
    issue (lines.flatMap fun e => ctEntry e.1 e.2) s =
      .next { s with block := { s.block with ct := writeLines s.block.ct lines } } := by
  induction lines generalizing s with
  | nil => rfl
  | cons e lines ih =>
    obtain ⟨hmaxe, hmax⟩ := List.forall_mem_cons.1 hmax
    rw [List.flatMap_cons, issue_append _ (ctEntryLoadsOneLine s e.1 e.2 hp hc hstg hlen hmaxe)]
    exact ih hp hc hstg hlen hmax

/-- LOAD_TABLE writes its lines into the empty table and leaves nothing staged. -/
theorem issue_loadTable {s : State} {lines : List (Byte × BitString)} (hp : s.params.wf) (hc : Configurable s.block)
    (hmax : ∀ e ∈ lines, e.2.length ≤ s.params.maxLen) :
    issue (loadTable lines) s =
      .next { s with block := { s.block with ct := writeLines Table.cleared lines, stg := [], stgLen := 0 } } := by
  have hc' : Configurable (performCtClear s.block) := hc
  rw [loadTable, issue_cons, ctClear_gated, gate_of_configurable hc]
  exact issue_ctEntries hp hc' rfl rfl hmax

/-- Settles O57: LOAD_TABLE leaves the table of its lines, which depends on the last line of each symbol alone. -/
theorem loadTableKeepsTheLastLineOfEachSymbol : Obligations.LoadTableKeepsTheLastLineOfEachSymbol := by
  refine fun s lines hp hc hmax => ⟨⟨_, issue_loadTable hp hc hmax, rfl, mem_validCodes_writeLines lines⟩,
    fun other hperm hnodup => ?_⟩
  have hmax' : ∀ e ∈ other, e.2.length ≤ s.params.maxLen := fun e he => hmax e (hperm.mem_iff.2 he)
  rw [issue_loadTable hp hc hmax, issue_loadTable hp hc hmax', writeLines_congr fun _ => lastLine_perm hperm hnodup]

end Sys2Proof.Machine

/-! PROOFS. Proofs/ControlCommands.lean: the statements of 41_control_commands.md. What R56 gives a gated command, the illegal variants of an
opcode and the commands that `ERROR` ignores come from Proofs/TableCommands.lean. -/

namespace Sys2Proof.Machine

/-! ### Gating and illegal variants (R48, R56) -/

theorem setTotalLo_gated (imm : BitVec 16) : Gated (.setTotalLo imm) fun _ => performSetTotalLo imm := fun _ _ => rfl

theorem setTotalHi_gated (imm : BitVec 16) : Gated (.setTotalHi imm) fun _ => performSetTotalHi imm := fun _ _ => rfl

theorem start_gated : Gated .start fun _ => performStart := fun _ _ => rfl

theorem formatI_variantsAreIllegal {op : BitVec 8} (hop : op = 4 ∨ op = 5) :
    VariantsAreIllegal op fun w => w.extractLsb' 16 8 ≠ 0 :=
  variantsAreIllegal fun w hw hres => by
    obtain ⟨-, -, -, hI, -⟩ := reservedBitsAndUnassignedOpcodesAreIllegal w
    exact hI (hw ▸ hop) hres

/-! ### START (R64) -/

/-- A table with one entry has no pair of codes to conflict (R38). -/
theorem conflictFree_singleton (d : Byte) (e : Entry) : conflictFree [(d, e)] = true := by
  cases hv : e.v <;> simp [conflictFree, validCodes, apart, hv]

/-- Settles O18: START performs one of the two branches of `performStart_cases`. -/
theorem startBeginsADecodeOrRaisesTableConflict : Obligations.StartBeginsADecodeOrRaisesTableConflict := by
  refine ⟨rfl, fun s hc => ?_, start_gated.gatedOut, formatZ_variantsAreIllegal (.inr (.inr (.inl rfl))), rfl,
    fun d => conflictFree_singleton d _⟩
  rw [start_gated.performs hc]
  obtain ⟨hfree, hb⟩ | ⟨hconflict, hb⟩ := performStart_cases s.block
  · exact ⟨fun _ => by rw [hb, beginDecode, emptyReader], fun hconflict => absurd (hfree.symm.trans hconflict) nofun⟩
  · exact ⟨fun hfree => absurd (hfree.symm.trans hconflict) nofun, fun _ => by rw [hb, raise]⟩

/-! ### ABORT (R65) -/

/-- Settles O19: ABORT is not gated, and in `ERROR` every other instruction is ignored (`blockEffect_of_error`). -/
theorem abortReturnsToIdleFromEveryState : Obligations.AbortReturnsToIdleFromEveryState := by
  refine ⟨rfl, exec_eq .abort, fun i s s' hs h hs' => ?_, formatZ_variantsAreIllegal (.inr (.inr (.inr rfl)))⟩
  obtain rfl := exec_next h
  by_contra hi
  exact hs' (by rw [blockEffect_of_error _ hs hi, hs])

/-! ### SET_TOTAL_LO and SET_TOTAL_HI (R62, R63) -/

/-- Settles O16: the written half and the kept half are the two parts of one append. -/
theorem setTotalLoWritesTheLowHalf : Obligations.SetTotalLoWritesTheLowHalf :=
  ⟨fun _ imm hc => (setTotalLo_gated imm).performs hc, fun imm => encodeThenDecodeIsIdentity (.setTotalLo imm) rfl,
    fun imm => (setTotalLo_gated imm).gatedOut, formatI_variantsAreIllegal (.inl rfl),
    fun _ _ => ⟨BitVec.extractLsb'_append_eq_right, BitVec.extractLsb'_append_eq_left⟩⟩

/-- Settles O17: the written half and the kept half are the two parts of one append. -/
theorem setTotalHiWritesTheHighHalf : Obligations.SetTotalHiWritesTheHighHalf :=
  ⟨fun _ imm hc => (setTotalHi_gated imm).performs hc, fun imm => encodeThenDecodeIsIdentity (.setTotalHi imm) rfl,
    fun imm => (setTotalHi_gated imm).gatedOut, formatI_variantsAreIllegal (.inr rfl),
    fun _ _ => ⟨BitVec.extractLsb'_append_eq_left, BitVec.extractLsb'_append_eq_right⟩⟩

end Sys2Proof.Machine

/-! PROOFS. Proofs/DecodeFsm.lean: the statements of 42_decode_fsm.md. What a decode does under any interleaving is fixed by its point, the
block without `OUTQ` and the tokens left (`run_ends_decode`). A served decode is followed step by step along the source's loop
(`Serving.endsAs`), and what the source makes of a payload (`sourceFrom_payloadBits`) is then what the FSM makes of it. -/

namespace Sys2Proof.Machine

/-! ### The rules of the FSM (R66 to R70) -/

/-- Settles O34: this is the FSM's part of R11 (`fsmTransition_iff`). -/
theorem fsmStepIsTheRelationOfItsRules : Obligations.FsmStepIsTheRelationOfItsRules :=
  fun p b b' => (fsmTransition_iff p b b').symm

/-- Settles O29: in RUN the target is tested first (R66). -/
theorem doneStepStopsAtTheTarget : Obligations.DoneStepStopsAtTheTarget := fun p _ hr hc => fsmStep_done p hr hc

/-- Settles O30: below TOTAL the count has room for one more. -/
theorem emitStepAppendsTheMatchedSymbol : Obligations.EmitStepAppendsTheMatchedSymbol := by
  refine fun p b d hr hc hm => ⟨fun hq => fsmStep_emit hr hc hm hq, fun hq => fsmStep_hold hr hc hm hq, fun hle => ?_⟩
  constructor <;> bv_omega

/-- Settles O31: the BIT step asks whether the child is a node. -/
theorem bitStepDescendsOrRaisesStruct : Obligations.BitStepDescendsOrRaisesStruct := by
  intro p b hr hc hm hb
  have hstep := fsmStep_bit p hr hc hm (by bv_omega)
  exact ⟨fun hn => hstep.trans (congrArg some (if_pos hn)),
    fun hn => hstep.trans (congrArg some (if_neg (Bool.eq_false_iff.1 hn)))⟩

/-- Settles O32: with no bit left the end of the stream is tested last (R66). -/
theorem truncatedStepRaisesTruncated : Obligations.TruncatedStepRaisesTruncated :=
  fun p _ hr hc hm hb he => fsmStep_truncated p hr hc hm hb he

/-- Settles O33: the FSM's decision and `in_ready` both ask for RUN. -/
theorem fsmStepsOnlyInRun : Obligations.FsmStepsOnlyInRun :=
  fun p _ h => ⟨fsmStep_of_not_run p h, inReady_of_not_run h⟩

/-- The FSM decides WAIT exactly where `in_ready` is 1: both ask for a bit that the reader does not have (R71, R79). -/
theorem inReady_iff_wait (p : Params) (b : Block) : inReady b = true ↔ fsmMove p b = .wait := by
  rw [inReady_iff]
  unfold fsmMove
  split
  · next hr => simp [hr]
  split
  · next hc => simp [hc]
  split
  · next d hm => split <;> simp [hm]
  · next hr hc hm =>
    split
    · next hb => simp [show ¬ b.bitcnt = 0#4 from hb]
    · next hb => cases he : b.eosf <;> simp_all

/-- Settles O26: `in_ready` is compared with the FSM's decision in the order of R66 (`inReady_iff_wait`). -/
theorem inReadyExactlyInWait : Obligations.InReadyExactlyInWait :=
  fun p b => ⟨inReady_iff b, inReady_iff_wait p b, fsmStep_wait⟩

/-! ### Turns of the FSM, and turns that run out (R66, R71, R111) -/

theorem takeTurn_next (t : Turn) (s : State) : ∃ s', takeTurn t s = .next s' := by
  cases t with
  | command =>
    rw [takeTurn, commandTurn]
    cases s.host.cmds with
    | nil => exact ⟨_, rfl⟩
    | cons w ws => exact ⟨_, exec_eq ..⟩
  | token =>
    rw [takeTurn, tokenTurn]
    cases s.host.tokens with
    | nil => exact ⟨_, rfl⟩
    | cons t ts => cases inReady s.block <;> exact ⟨_, exec_eq ..⟩
  | pop =>
    rw [takeTurn, popTurn]
    cases popOutput s.block <;> exact ⟨_, rfl⟩
  | reset => exact ⟨_, rfl⟩
  | fsm =>
    rw [takeTurn, fsmTurn]
    cases fsmStep s.params s.block <;> exact ⟨_, rfl⟩

/-- A step goes on, or the turns have run out and the FSM has no step (I17). -/
theorem step_next_or_stuck (s : State) :
    (∃ s', step s = .next s') ∨ (s.host.turns = [] ∧ fsmStep s.params s.block = none ∧ step s = .fault .stuck) := by
  rw [step, stepOnce]
  cases hts : s.host.turns with
  | cons t ts => exact .inl (takeTurn_next t _)
  | nil =>
    rw [fsmAlone]
    cases hf : fsmStep s.params s.block with
    | none => exact .inr ⟨rfl, rfl, rfl⟩
    | some b => exact .inl ⟨_, rfl⟩

/-- Settles O10: an FSM turn, and a machine whose turns have run out, ask `fsmStep`; every other turn goes on. -/
theorem fsmStepsOnItsTurnsAndWhenTurnsRunOut : Obligations.FsmStepsOnItsTurnsAndWhenTurnsRunOut := by
  refine fun s => ⟨fun ts b ht hf => ?_, fun ts ht hf => ?_, fun b ht hf => ?_, fun f => ⟨fun h => ?_, fun ⟨ht, hf⟩ => ?_⟩,
    fun r h => ?_⟩
  · rw [step_of_fsmStep (by simp [fsmIsNext, ht]) hf, HostSide.nextTurn, ht, List.tail_cons]
  · simp [step, stepOnce, ht, takeTurn, fsmTurn, hf, State.withTurns]
  · rw [step_of_fsmStep (by simp [fsmIsNext, ht]) hf, HostSide.nextTurn, ht, List.tail_nil, ← ht]
  · obtain ⟨s', hs⟩ | ⟨ht, hf, -⟩ := step_next_or_stuck s
    · simp [hs] at h
    · exact ⟨ht, hf⟩
  · simp [step, stepOnce, ht, fsmAlone, hf]
  · obtain ⟨s', hs⟩ | ⟨-, -, hs⟩ := step_next_or_stuck s <;> simp [hs] at h

/-! ### One decode under any interleaving (R72, R77) -/

/-- What the rest of a decode depends on: the block without its output queue, and the tokens the host still holds. -/
structure DecodePoint where
  block : Block
  tokens : List Token

/-- The block with nothing in `OUTQ`. -/
def Block.drained (b : Block) : Block := { b with outq := [] }

def State.decodePoint (s : State) : DecodePoint := { block := s.block.drained, tokens := s.host.tokens }

/-- `STATE`, `ERR` and `COUNT` are part of the point. -/
theorem here_eq_of_decodePoint {s s' : State} (h : s.decodePoint = s'.decodePoint) :
    DecodeEnd.here s.block = DecodeEnd.here s'.block :=
  congrArg (fun c => DecodeEnd.here c.block) h

/-- The one way on from a point of a decode, with the symbols it appends: the FSM's step where there is room in `OUTQ`,
and in WAIT the host's next token. -/
def DecodePoint.advance (c : DecodePoint) : Option (List Byte × DecodePoint) :=
  match fsmStep .reference c.block, c.tokens with
  | some b, ts => some (b.outq, { block := b.drained, tokens := ts })
  | none, [] => none
  | none, t :: ts =>
    if inReady c.block then
      some ([], { block := if t[8] then seeEos c.block else loadByte (t.extractLsb' 0 8) c.block, tokens := ts })
    else none

/-- The decode goes on from the first point to its end at the second, and appends these symbols. -/
inductive DecodePoint.Ends : DecodePoint → List Byte → DecodePoint → Prop
  | stop {c : DecodePoint} (h : c.block.state ≠ .run) : Ends c [] c
  | advance {c c' c'' : DecodePoint} {ds ds' : List Byte} (h : c.advance = some (ds, c')) (hrest : Ends c' ds' c'') :
      Ends c (ds ++ ds') c''

theorem advance_of_not_run {c : DecodePoint} (h : c.block.state ≠ .run) : c.advance = none := by
  cases hts : c.tokens <;> simp [DecodePoint.advance, fsmStep_of_not_run _ h, inReady_of_not_run h, hts]

/-- The end of a decode is a function of its point (R72). -/
theorem DecodePoint.Ends.unique {c c₁ c₂ : DecodePoint} {ds₁ ds₂ : List Byte} (h₁ : c.Ends ds₁ c₁) (h₂ : c.Ends ds₂ c₂) :
    ds₁ = ds₂ ∧ c₁ = c₂ := by
  induction h₁ generalizing ds₂ c₂ with
  | stop hs =>
    cases h₂ with
    | stop _ => exact ⟨rfl, rfl⟩
    | advance h _ => simp [advance_of_not_run hs] at h
  | advance h _ ih =>
    cases h₂ with
    | stop hs => simp [advance_of_not_run hs] at h
    | advance h' hrest =>
      obtain ⟨rfl, rfl⟩ : _ ∧ _ := by simpa [h] using h'
      obtain ⟨rfl, rfl⟩ := ih hrest
      exact ⟨rfl, rfl⟩

/-- With an empty queue there is room for an EMIT step, and the FSM's step is otherwise the same (R68). -/
theorem fsmStep_drained {p : Params} {b b' : Block} {ds : List Byte} (h : fsmStep p b = some b') (hds : b'.outq = b.outq ++ ds) :
    fsmStep .reference b.drained = some { b' with outq := ds } := by
  have hq : b.drained.outq.length < Params.reference.outDepth := Nat.one_pos
  obtain ⟨hr, ⟨hc, rfl⟩ | ⟨hc, d, hm, _, rfl⟩ | ⟨hc, hm, hb, hn, rfl⟩ | ⟨hc, hm, hb, hn, rfl⟩ | ⟨hc, hm, hb, he, rfl⟩⟩ :=
    fsmStep_cases h
  · obtain rfl : ds = [] := by simpa using hds
    exact fsmStep_done _ hr hc
  · obtain rfl : ds = [d] := by simpa using hds.symm
    exact fsmStep_emit hr hc hm hq
  · obtain rfl : ds = [] := by simpa using hds
    exact (fsmStep_bit _ (b := b.drained) hr hc hm hb).trans (congrArg some (if_pos hn))
  · obtain rfl : ds = [] := by simpa using hds
    exact (fsmStep_bit _ (b := b.drained) hr hc hm hb).trans (congrArg some (if_neg (Bool.eq_false_iff.1 hn)))
  · obtain rfl : ds = [] := by simpa using hds
    exact fsmStep_truncated _ hr hc hm hb he

theorem advance_of_fsmStep {p : Params} {c : DecodePoint} {b b' : Block} {ds : List Byte} (hc : c.block = b.drained)
    (h : fsmStep p b = some b') (hds : b'.outq = b.outq ++ ds) :
    c.advance = some (ds, { block := b'.drained, tokens := c.tokens }) := by
  rw [DecodePoint.advance, hc, fsmStep_drained h hds]
  rfl

theorem advance_of_inReady {c : DecodePoint} {t : Token} {ts : List Token} (hr : inReady c.block = true)
    (hts : c.tokens = t :: ts) :
    c.advance = some ([], { block := if t[8] then seeEos c.block else loadByte (t.extractLsb' 0 8) c.block, tokens := ts }) := by
  simp [DecodePoint.advance, fsmStep_wait hr, hts, hr]

theorem head?_of_noCommand {ts : List Turn} (h : noCommand ts = true) : ts.head? ≠ some .command ∧ ts.head? ≠ some .reset := by
  cases ts <;> simp_all [noCommand]

/-- A step of a decode without command or reset leaves its point and appends nothing, or takes the one way on. -/
theorem step_advances {s s' : State} (h : step s = .next s') (hn : noCommand s.host.turns = true) :
    (s'.decodePoint = s.decodePoint ∧ appended s = []) ∨ s.decodePoint.advance = some (appended s, s'.decodePoint) := by
  obtain ⟨hcmd, hreset⟩ := head?_of_noCommand hn
  have hout := step_symbolsOut h hreset
  rcases step_cases h with ⟨b, hf, ht, rfl⟩ | ⟨_, _, ht, _, rfl⟩ | ⟨t, ts, ht, hts, hr, rfl⟩ | ⟨d, q, _, hq, rfl⟩ | ⟨ht, rfl⟩ |
    ⟨_, _, rfl⟩
  · exact .inr (advance_of_fsmStep rfl hf (by simpa [symbolsOut] using hout))
  · exact absurd ht hcmd
  · have happ : appended s = [] := by simpa [symbolsOut, blockEffect_outq] using hout
    right
    rw [happ, advance_of_inReady (t := t) (ts := ts) hr hts]
    simp only [State.decodePoint, blockEffect_token _ _ hr]
    split <;> rfl
  · exact .inl ⟨rfl, by simpa [symbolsOut, hq] using hout⟩
  · exact absurd ht hreset
  · exact .inl ⟨rfl, by simpa [symbolsOut] using hout⟩

theorem step_turns {s s' : State} (h : step s = .next s') : s'.host.turns = s.host.turns.tail := by
  rcases step_cases h with ⟨_, _, _, rfl⟩ | ⟨_, _, _, _, rfl⟩ | ⟨_, _, _, _, _, rfl⟩ | ⟨_, _, _, _, rfl⟩ | ⟨_, rfl⟩ |
    ⟨_, _, rfl⟩ <;> rfl

theorem noCommand_step {s s' : State} (h : step s = .next s') (hn : noCommand s.host.turns = true) :
    noCommand s'.host.turns = true := by
  rw [step_turns h]
  exact List.all_eq_true.2 fun t ht => List.all_eq_true.1 hn t (List.mem_of_mem_tail ht)

theorem run_succ {k : Nat} {s s' : State} (h : core.run (k + 1) s = .next s') :
    ∃ s₁, step s = .next s₁ ∧ core.run k s₁ = .next s' := by
  simp only [Host.Core.run] at h
  split at h
  · next s₁ hs => exact ⟨s₁, hs, h⟩
  · cases h
  · cases h

/-- Outside `RUN` nothing but pops goes on. -/
theorem run_of_not_run {k : Nat} {s s' : State} (hs : s.block.state ≠ .run) (hn : noCommand s.host.turns = true)
    (h : core.run k s = .next s') : s'.decodePoint = s.decodePoint ∧ symbolsOut s' = symbolsOut s := by
  induction k generalizing s with
  | zero =>
    obtain rfl : s = s' := Host.Outcome.next.inj h
    exact ⟨rfl, rfl⟩
  | succ k ih =>
    obtain ⟨s₁, hstep, hrun⟩ := run_succ h
    have hout := step_symbolsOut hstep (head?_of_noCommand hn).2
    obtain ⟨hpoint, happ⟩ | hadv := step_advances hstep hn
    · have hs₁ : s₁.block.state ≠ .run := fun hr => hs ((congrArg (fun c => c.block.state) hpoint).symm.trans hr)
      obtain ⟨hpoint', hout'⟩ := ih hs₁ (noCommand_step hstep hn) hrun
      exact ⟨hpoint'.trans hpoint, by rw [hout', hout, happ, List.append_nil]⟩
    · simp [advance_of_not_run (c := s.decodePoint) hs] at hadv

/-- A run without command or reset to a state outside `RUN` ends the decode, with the result that its point fixes. -/
theorem run_ends_decode {k : Nat} {s s' : State} (hn : noCommand s.host.turns = true) (h : core.run k s = .next s')
    (hs' : s'.block.state ≠ .run) :
    ∃ ds, decodeEnd k s = some { DecodeEnd.here s'.block with symbols := ds } ∧
      s.decodePoint.Ends ds s'.decodePoint ∧ symbolsOut s' = symbolsOut s ++ ds := by
  induction k generalizing s with
  | zero =>
    obtain rfl : s = s' := Host.Outcome.next.inj h
    exact ⟨[], by simp [decodeEnd, hs', DecodeEnd.here], .stop hs', by simp⟩
  | succ k ih =>
    by_cases hr : s.block.state = .run
    · obtain ⟨s₁, hstep, hrun⟩ := run_succ h
      obtain ⟨ds, hend, hends, hout⟩ := ih (noCommand_step hstep hn) hrun
      refine ⟨appended s ++ ds, by simp [decodeEnd, hr, hstep, hend, DecodeEnd.after], ?_, ?_⟩
      · obtain ⟨hpoint, happ⟩ | hadv := step_advances hstep hn
        · rw [happ, ← hpoint]
          exact hends
        · exact .advance hadv hends
      · rw [hout, step_symbolsOut hstep (head?_of_noCommand hn).2, List.append_assoc]
    · obtain ⟨hpoint, hout⟩ := run_of_not_run hr hn h
      refine ⟨[], ?_, ?_, by simp [hout]⟩
      · rw [decodeEnd, if_neg hr, here_eq_of_decodePoint hpoint]
        rfl
      · rw [hpoint]
        exact .stop hr

/-- Settles O51: both runs end the decode from the same point. -/
theorem decodeDoesNotDependOnTheInterleaving : Obligations.DecodeDoesNotDependOnTheInterleaving := by
  intro s s₁ s₂ ts₁ ts₂ k₁ k₂ _ hn₁ hn₂ hrun₁ hrun₂ hs₁ hs₂
  obtain ⟨ds, hend₁, hends₁, hout₁⟩ := run_ends_decode hn₁ hrun₁ hs₁
  obtain ⟨ds', hend₂, hends₂, hout₂⟩ := run_ends_decode hn₂ hrun₂ hs₂
  obtain ⟨rfl, hpoint⟩ := hends₁.unique hends₂
  exact ⟨⟨_, hend₁, here_eq_of_decodePoint hpoint ▸ hend₂, rfl, rfl, rfl, hout₁, hout₂⟩, congrArg DecodePoint.tokens hpoint,
    congrArg DecodePoint.block hpoint⟩

/-! ### The source's loop on the table (R37, R73) -/

@[simp] theorem sourceLoop_zero (root cur : Tree) (bits : BitString) :
    sourceLoop root cur bits 0 = { emitted := [], ending := .complete, unread := bits } := by
  cases bits <;> rfl

section
variable {root cur : Tree} {x : Bool} (bits : BitString) (n : Nat)

theorem sourceLoop_absent (h : cur.child x = .absent) :
    sourceLoop root cur (x :: bits) (n + 1) = { emitted := [], ending := .corrupt, unread := bits } := by
  simp [sourceLoop, h]

theorem sourceLoop_leaf {d : Byte} (hleaf : (cur.child x).isLeaf = true) (hd : (cur.child x).symbol = some d) :
    sourceLoop root cur (x :: bits) (n + 1) = (sourceLoop root root bits n).after d := by
  cases hc : cur.child x with
  | absent => simp [hc, Tree.symbol] at hd
  | node sym l r =>
    obtain rfl : sym = some d := by simpa [hc, Tree.symbol] using hd
    rw [hc] at hleaf
    simp [sourceLoop, hc, hleaf]

theorem sourceLoop_inner (hne : cur.child x ≠ .absent) (hleaf : (cur.child x).isLeaf = false) :
    sourceLoop root cur (x :: bits) (n + 1) = sourceLoop root (cur.child x) bits (n + 1) := by
  cases hc : cur.child x with
  | absent => exact absurd hc hne
  | node sym l r =>
    rw [hc] at hleaf
    simp [sourceLoop, hc, hleaf]

end

/-- The source's loop on the rebuilt tree, from the node at a path. -/
def sourceFrom (t : Table) (p : BitString) (bits : BitString) (n : Nat) : SourceRun :=
  sourceLoop (buildTree (validCodes t)) ((buildTree (validCodes t)).descend p) bits n

theorem sourceDecode_eq (t : Table) (bits : BitString) (n : Nat) : sourceDecode t bits n = sourceFrom t [] bits n := by
  rw [sourceDecode, sourceFrom, descend_nil]

theorem child_descend (u : Tree) (p : BitString) (x : Bool) : (u.descend p).child x = u.descend (p ++ [x]) := by
  rw [descend_append, descend_cons, descend_nil]

theorem descend_eq_absent_iff (t : Table) (p : BitString) :
    (buildTree (validCodes t)).descend p = .absent ↔ isNode t p = false := by
  obtain ⟨hnode, -⟩ := rebuiltTreeHasTheNodesOfTheTable t p
  rw [← not_iff_not, Bool.not_eq_false]
  exact hnode

/-- On a conflict-free table a node below the root without a symbol has a child: some code goes on below it (R37). -/
theorem isLeaf_eq_false_of_unmatched {t : Table} {p : BitString} (hfree : conflictFree t = true) (hp : p ≠ [])
    (hnode : isNode t p = true) (hm : matchSym t p = none) : ((buildTree (validCodes t)).descend p).isLeaf = false := by
  obtain hnil | ⟨e, he, q, hq⟩ := (isNode_iff t p).1 hnode
  · exact absurd hnil hp
  cases q with
  | nil => exact absurd (by simpa using hq.symm) ((matchSym_none_iff hfree).1 hm e he)
  | cons y q =>
    have hchild : isNode t (p ++ [y]) = true := (isNode_iff _ _).2 (.inr ⟨e, he, q, by simpa using hq⟩)
    refine Bool.eq_false_iff.2 fun hleaf => ?_
    have habsent := ((Tree.isLeaf_iff _).1 hleaf).2 y
    rw [child_descend, descend_eq_absent_iff] at habsent
    simp [hchild] at habsent

section
variable {t : Table} {p : BitString} {x : Bool} (bits : BitString) (n : Nat)

theorem sourceFrom_complete : sourceFrom t p bits 0 = { emitted := [], ending := .complete, unread := bits } :=
  sourceLoop_zero ..

theorem sourceFrom_truncated : sourceFrom t p [] (n + 1) = { emitted := [], ending := .truncated, unread := [] } := rfl

theorem sourceFrom_corrupt (hnode : isNode t (p ++ [x]) = false) :
    sourceFrom t p (x :: bits) (n + 1) = { emitted := [], ending := .corrupt, unread := bits } :=
  sourceLoop_absent bits n (by rwa [child_descend, descend_eq_absent_iff])

theorem sourceFrom_emit (hfree : conflictFree t = true) {d : Byte} (hm : matchSym t (p ++ [x]) = some d) :
    sourceFrom t p (x :: bits) (n + 1) = (sourceFrom t [] bits n).after d := by
  obtain ⟨-, hleaf⟩ := matchedNodesAreLeaves t (p ++ [x]) hfree (by simp [hm])
  have hsym := (rebuiltTreeHasTheNodesOfTheTable t (p ++ [x])).2 hfree
  rw [← child_descend] at hleaf hsym
  rw [← sourceDecode_eq]
  exact sourceLoop_leaf bits n hleaf (hsym.trans hm)

theorem sourceFrom_inner (hfree : conflictFree t = true) (hnode : isNode t (p ++ [x]) = true)
    (hm : matchSym t (p ++ [x]) = none) :
    sourceFrom t p (x :: bits) (n + 1) = sourceFrom t (p ++ [x]) bits (n + 1) := by
  have hleaf := isLeaf_eq_false_of_unmatched hfree (by simp) hnode hm
  rw [sourceFrom, sourceFrom, ← child_descend]
  refine sourceLoop_inner bits n (fun h => ?_) (by rwa [child_descend])
  rw [child_descend, descend_eq_absent_iff, hnode] at h
  cases h

end

/-- The source's loop reads the rest of a code and emits its symbol (R37). -/
theorem sourceFrom_code {t : Table} (hfree : conflictFree t = true) {d : Byte} {p q : BitString} (hq : q ≠ [])
    (hd : (d, p ++ q) ∈ validCodes t) (bits : BitString) (n : Nat) :
    sourceFrom t p (q ++ bits) (n + 1) = (sourceFrom t [] bits n).after d := by
  induction q generalizing p with
  | nil => exact absurd rfl hq
  | cons x q ih =>
    have hd' : (d, (p ++ [x]) ++ q) ∈ validCodes t := by simpa using hd
    by_cases hlast : q = []
    · subst hlast
      exact sourceFrom_emit bits n hfree ((matchSym_some_iff hfree).2 (by simpa using hd'))
    · have hnode : isNode t (p ++ [x]) = true := (isNode_iff _ _).2 (.inr ⟨_, hd', List.prefix_append _ _⟩)
      have hm : matchSym t (p ++ [x]) = none := by
        refine (matchSym_none_iff hfree).2 fun e he hcode => hlast ?_
        have heq := prefix_unique hfree he hd' (hcode ▸ List.prefix_append _ _)
        simpa [heq] using hcode
      exact (sourceFrom_inner _ n hfree hnode hm).trans (ih hlast hd')

/-- The source's loop decodes the codes of a symbol sequence to the sequence, whatever bits follow (R76). -/
theorem sourceFrom_payloadBits {t : Table} (ht : Table.wf t) (hfree : conflictFree t = true) (hne : NoEmptyCode t)
    {syms : List Byte} (hsyms : ∀ d ∈ syms, (Table.read t d).v = true) (bits : BitString) :
    sourceFrom t [] (payloadBits t syms ++ bits) syms.length = { emitted := syms, ending := .complete, unread := bits } := by
  induction syms with
  | nil => exact sourceFrom_complete bits
  | cons d syms ih =>
    obtain ⟨hd, hsyms⟩ := List.forall_mem_cons.1 hsyms
    have hcode : (d, [] ++ (Table.read t d).code) ∈ validCodes t := (mem_validCodes ht).2 ⟨hd, rfl⟩
    rw [payloadBits, List.flatMap_cons, List.append_assoc, List.length_cons, sourceFrom_code hfree (hne d hd) hcode]
    exact congrArg (SourceRun.after d) (ih hsyms)

/-- Without a zero-length code the root has no symbol (R37). -/
theorem matchSym_root_of_noEmptyCode {t : Table} (ht : Table.wf t) (hne : NoEmptyCode t) : matchSym t [] = none := by
  refine matchSym_none fun e he hnil => ?_
  obtain ⟨hv, hcode⟩ := (mem_validCodes ht).1 he
  exact hne e.1 hv (hcode.trans hnil)

/-! ### A served decode (R102, R105, R106) -/

/-- How far a served decode has come: the matcher's path, the unread bits of the current byte, the bytes the host still holds,
and the symbols this decode has emitted. -/
structure Progress where
  cur : BitString
  buffer : BitString
  bytes : List Byte
  emitted : List Byte

/-- The payload's bits that the FSM has not read. -/
def Progress.unread (g : Progress) : BitString := g.buffer ++ g.bytes.flatMap byteBits

/-- The steps it takes to fetch the bytes and to read the bits that are left. -/
def Progress.cost (g : Progress) : Nat := g.bytes.length + g.unread.length

theorem Progress.cost_eq {g : Progress} {bits : BitString} (h : g.unread = bits) : g.cost = g.bytes.length + bits.length := by
  rw [Progress.cost, h]

/-- `s` has come as far as `g` in the served decode that START began in `start`; the tokens `rest` follow the payload,
and the host has popped every symbol. -/
structure Served (start : State) (rest : List Token) (g : Progress) (s : State) : Prop where
  params : s.params = start.params
  table : s.block.ct = start.block.ct
  total : s.block.total = start.block.total
  cursor : s.block.cur = g.cur
  buffer : bufferedBits s.block = g.buffer
  bitCount : s.block.bitcnt.toNat ≤ 8
  tokens : s.host.tokens = g.bytes.map byteToken ++ rest
  count : s.block.count.toNat = g.emitted.length
  queue : s.block.outq = []
  received : s.host.received = start.host.received ++ g.emitted

/-- The decode is still going on, and has not seen the end of the stream. -/
structure Serving (start : State) (rest : List Token) (g : Progress) (s : State) : Prop extends Served start rest g s where
  running : s.block.state = .run
  streaming : s.block.eosf = false

theorem serving_start {s : State} {bytes : List Byte} {rest : List Token} (hc : Configurable s.block)
    (hfree : conflictFree s.block.ct = true) (hq : s.block.outq = []) (htokens : s.host.tokens = bytes.map byteToken ++ rest) :
    ∃ s₀, exec .start s = .next s₀ ∧ Serving s rest { cur := [], buffer := [], bytes := bytes, emitted := [] } s₀ := by
  refine ⟨{ s with block := beginDecode s.block }, ?_, ?_⟩
  · rw [start_gated.performs hc, performStart, if_pos hfree]
  · exact { params := rfl, table := rfl, total := rfl, cursor := rfl, buffer := bufferedBits_empty rfl, bitCount := Nat.zero_le _,
            tokens := htokens, count := rfl, queue := hq, received := (List.append_nil _).symm, running := rfl, streaming := rfl }

section
variable {start s : State} {rest : List Token} {g : Progress} (h : Serving start rest g s)
include h

theorem Serving.count_ne_total (hlt : g.emitted.length < start.block.total.toNat) : s.block.count ≠ s.block.total := by
  intro heq
  have := h.count
  rw [heq, h.total] at this
  omega

theorem Serving.matchSym_eq : matchSym s.block.ct s.block.cur = matchSym start.block.ct g.cur := by
  rw [h.table, h.cursor]

theorem Serving.bitcnt_ne_zero {x : Bool} {buf : BitString} (hbuf : g.buffer = x :: buf) : s.block.bitcnt ≠ 0 := by
  intro h0
  simpa [bufferedBits_empty h0, hbuf] using h.buffer

theorem Serving.bitcnt_eq_zero (hbuf : g.buffer = []) : s.block.bitcnt = 0 := by
  by_contra h0
  simpa [bufferedBits_next h0 h.bitCount, hbuf] using h.buffer

/-- In WAIT the block is ready for a token. -/
theorem Serving.ready (hlt : g.emitted.length < start.block.total.toNat) (hm : matchSym start.block.ct g.cur = none)
    (hbuf : g.buffer = []) : inReady s.block = true :=
  (inReady_iff _).2 ⟨h.running, h.count_ne_total hlt, h.matchSym_eq.trans hm, h.bitcnt_eq_zero hbuf, h.streaming⟩

/-- The DONE step (R67). -/
theorem Serving.finish (hn : g.emitted.length = start.block.total.toNat) :
    ∃ s', servedStep s = .next s' ∧ Served start rest g s' ∧ s'.block.state = .done := by
  have hc : s.block.count = s.block.total := BitVec.eq_of_toNat_eq (by rw [h.count, h.total, hn])
  exact ⟨_, servedStep_fsm h.queue (fsmStep_done _ h.running hc), { h.toServed with }, rfl⟩

/-- The host's next byte is accepted (R80). -/
theorem Serving.fetch {d : Byte} {ds : List Byte} (hlt : g.emitted.length < start.block.total.toNat)
    (hm : matchSym start.block.ct g.cur = none) (hbuf : g.buffer = []) (hbytes : g.bytes = d :: ds) :
    ∃ s', servedStep s = .next s' ∧ Serving start rest { g with buffer := byteBits d, bytes := ds } s' := by
  have htokens : s.host.tokens = byteToken d :: (ds.map byteToken ++ rest) := by rw [h.tokens, hbytes]; rfl
  refine ⟨_, servedStep_token h.queue (h.ready hlt hm hbuf) htokens, ?_⟩
  rw [byteToken_eos, byteToken_data]
  exact { h with buffer := bufferedBits_load d _, bitCount := le_rfl, tokens := rfl }

section
variable {x : Bool} {buf : BitString} (hbuf : g.buffer = x :: buf)
include hbuf

theorem Serving.nextBit_eq : nextBit s.block = x ∧ bufferedBits (dropBit s.block) = buf := by
  simpa [bufferedBits_next (h.bitcnt_ne_zero hbuf) h.bitCount, hbuf] using h.buffer

theorem Serving.bitCount_dropBit : (dropBit s.block).bitcnt.toNat ≤ 8 := by
  have h0 := h.bitcnt_ne_zero hbuf
  have h8 := h.bitCount
  rw [dropBit_bitcnt]
  bv_omega

variable (hlt : g.emitted.length < start.block.total.toNat) (hm : matchSym start.block.ct g.cur = none)
include hlt hm

/-- The BIT step takes the next bit of the buffer (R69). -/
theorem Serving.takeBit : servedStep s = .next { s with block := bitStep s.block, host := { s.host with turns := [] } } :=
  servedStep_fsm h.queue
    (fsmStep_bit _ h.running (h.count_ne_total hlt) (h.matchSym_eq.trans hm) (h.bitcnt_ne_zero hbuf))

theorem Serving.descend (hnode : isNode start.block.ct (g.cur ++ [x]) = true) :
    ∃ s', servedStep s = .next s' ∧ Serving start rest { g with cur := g.cur ++ [x], buffer := buf } s' := by
  obtain ⟨hx, hrest⟩ := h.nextBit_eq hbuf
  have hb : bitStep s.block = moveCursor (g.cur ++ [x]) (dropBit s.block) := by
    rw [bitStep, h.table, h.cursor, hx, if_pos hnode]
  refine ⟨_, h.takeBit hbuf hlt hm, ?_⟩
  rw [hb]
  exact { h with cursor := rfl, buffer := hrest, bitCount := h.bitCount_dropBit hbuf }

theorem Serving.corrupt (hnode : isNode start.block.ct (g.cur ++ [x]) = false) :
    ∃ s', servedStep s = .next s' ∧ Served start rest { g with buffer := buf } s' ∧
      s'.block.state = .error ∧ s'.block.err = .struct := by
  obtain ⟨hx, hrest⟩ := h.nextBit_eq hbuf
  have hb : bitStep s.block = raise .struct (dropBit s.block) := by
    rw [bitStep, h.table, h.cursor, hx, if_neg (Bool.eq_false_iff.1 hnode)]
  refine ⟨_, h.takeBit hbuf hlt hm, ?_⟩
  rw [hb]
  exact ⟨{ h.toServed with buffer := hrest, bitCount := h.bitCount_dropBit hbuf }, rfl, rfl⟩

end

/-- The EMIT step appends the matched symbol, and the host pops it (R68, R82). -/
theorem Serving.emitAndPop (hp : start.params.wf) (hlt : g.emitted.length < start.block.total.toNat) {d : Byte}
    (hm : matchSym start.block.ct g.cur = some d) :
    ∃ s', servedRun 2 s = .next s' ∧ Serving start rest { g with cur := [], emitted := g.emitted ++ [d] } s' := by
  have hroom : s.block.outq.length < s.params.outDepth := by
    rw [h.queue, h.params]
    exact hp.2.2
  have hemit := servedStep_fsm h.queue (fsmStep_emit h.running (h.count_ne_total hlt) (h.matchSym_eq.trans hm) hroom)
  refine ⟨_, (servedRun_succ 1 hemit).trans (servedRun_succ 0 (servedStep_pop (d := d) (q := []) ?_)), ?_⟩
  · rw [emit_outq, h.queue]
    rfl
  · refine { h with cursor := rfl, count := ?_, queue := rfl, received := ?_ }
    · have hcount := h.count
      have hlt' := start.block.total.isLt
      rw [List.length_append, List.length_singleton, ← hcount]
      change (s.block.count + 1).toNat = _
      bv_omega
    · change s.host.received ++ [d] = _
      rw [h.received, List.append_assoc]

/-- At the end of the payload the end-of-stream token is accepted, and TRUNCATED is raised (R70, R81). -/
theorem Serving.truncated {rest' : List Token} (hlt : g.emitted.length < start.block.total.toNat)
    (hm : matchSym start.block.ct g.cur = none) (hunread : g.unread = []) (hrest : rest = eosToken :: rest') :
    ∃ s', servedRun 2 s = .next s' ∧ Served start rest' g s' ∧ s'.block.state = .error ∧ s'.block.err = .truncated := by
  obtain ⟨hbuf, hbytes⟩ := List.append_eq_nil_iff.1 hunread
  have hnil : g.bytes = [] := by
    cases hb : g.bytes with
    | nil => rfl
    | cons d ds => simpa [hb] using congrArg List.length hbytes
  have htokens : s.host.tokens = eosToken :: rest' := by rw [h.tokens, hnil, hrest]; rfl
  have heos := servedStep_token h.queue (h.ready hlt hm hbuf) htokens
  rw [if_pos (by decide)] at heos
  have htrunc := fsmStep_truncated s.params (b := seeEos s.block) h.running (h.count_ne_total hlt) (h.matchSym_eq.trans hm)
    (h.bitcnt_eq_zero hbuf) rfl
  refine ⟨_, (servedRun_succ 1 heos).trans (servedRun_succ 0 (servedStep_fsm h.queue htrunc)), ?_, rfl, rfl⟩
  exact { h.toServed with tokens := by rw [hnil]; rfl }

/-- Where a bit is left, the buffer holds it already or after the next byte has been fetched. -/
theorem Serving.fetchBit (hlt : g.emitted.length < start.block.total.toNat) (hm : matchSym start.block.ct g.cur = none)
    {x : Bool} {bits : BitString} (hunread : g.unread = x :: bits) :
    ∃ j s₁ buf ds, servedRun j s = .next s₁ ∧ Serving start rest { g with buffer := x :: buf, bytes := ds } s₁ ∧
      buf ++ ds.flatMap byteBits = bits ∧ j + ds.length = g.bytes.length := by
  cases hbuf : g.buffer with
  | cons y buf =>
    obtain ⟨rfl, hbits⟩ : y = x ∧ buf ++ g.bytes.flatMap byteBits = bits := by simpa [Progress.unread, hbuf] using hunread
    exact ⟨0, s, buf, g.bytes, rfl, hbuf ▸ h, hbits, Nat.zero_add _⟩
  | nil =>
    cases hbytes : g.bytes with
    | nil => simp [Progress.unread, hbuf, hbytes] at hunread
    | cons d ds =>
      obtain ⟨s₁, hstep, h₁⟩ := h.fetch hlt hm hbuf hbytes
      cases hd : byteBits d with
      | nil => simpa [hd] using byteBits_length d
      | cons y buf =>
        obtain ⟨rfl, hbits⟩ : y = x ∧ buf ++ ds.flatMap byteBits = bits := by
          simpa [Progress.unread, hbuf, hbytes, hd] using hunread
        exact ⟨1, s₁, buf, ds, servedRun_succ 0 hstep, hd ▸ h₁, hbits, Nat.add_comm _ _⟩

end

/-! ### The served decode ends as the source's loop ends (R73) -/

/-- How the block shows the source's ending (R67, R69, R70). -/
def SourceEnd.shownBy (b : Block) : SourceEnd → Prop
  | .complete => b.state = .done
  | .truncated => b.state = .error ∧ b.err = .truncated
  | .corrupt => b.state = .error ∧ b.err = .struct

/-- Of the tokens that follow the payload, a truncated decode has accepted the first. -/
def SourceEnd.tokensLeft (rest : List Token) : SourceEnd → List Token
  | .complete => rest
  | .truncated => rest.tail
  | .corrupt => rest

/-- The steps of an ending, beside those of the last bit: DONE is one, and IN_EOS and TRUNCATED are two. -/
def SourceEnd.cost : SourceEnd → Nat
  | .complete => 1
  | .truncated => 2
  | .corrupt => 0

/-- The decode that has come as far as `g` in `s` ends as the source's run `r`, after one step for each byte fetched and each bit read,
two for each symbol, and those of the ending. -/
def EndsAs (start : State) (rest : List Token) (g : Progress) (s : State) (r : SourceRun) : Prop :=
  ∃ k s' g', servedRun k s = .next s' ∧ Served start (r.ending.tokensLeft rest) g' s' ∧ r.ending.shownBy s'.block ∧
    g'.emitted = g.emitted ++ r.emitted ∧ g'.unread = r.unread ∧
    k + g'.cost = g.cost + 2 * r.emitted.length + r.ending.cost

/-- Steps that read bits come before the end. -/
theorem EndsAs.of_read {start : State} {rest : List Token} {g g₁ : Progress} {s s₁ : State} {r : SourceRun} {j : Nat}
    (h : EndsAs start rest g₁ s₁ r) (hrun : servedRun j s = .next s₁) (hemitted : g₁.emitted = g.emitted)
    (hcost : j + g₁.cost = g.cost) : EndsAs start rest g s r := by
  obtain ⟨k, s', g', hrun', hserved, hshown, hem, hun, hk⟩ := h
  exact ⟨j + k, s', g', (servedRun_add k hrun).trans hrun', hserved, hshown, hemitted ▸ hem, hun, by omega⟩

/-- The two steps of a symbol come before the end. -/
theorem EndsAs.of_symbol {start : State} {rest : List Token} {g g₁ : Progress} {s s₁ : State} {r : SourceRun} {d : Byte}
    (h : EndsAs start rest g₁ s₁ r) (hrun : servedRun 2 s = .next s₁) (hemitted : g₁.emitted = g.emitted ++ [d])
    (hcost : g₁.cost = g.cost) : EndsAs start rest g s (r.after d) := by
  obtain ⟨k, s', g', hrun', hserved, hshown, hem, hun, hk⟩ := h
  refine ⟨2 + k, s', g', (servedRun_add k hrun).trans hrun', hserved, hshown, ?_, hun, ?_⟩
  · rw [hem, hemitted, List.append_assoc]
    rfl
  · simp only [SourceRun.after, List.length_cons]
    omega

section
variable {start s : State} {rest : List Token} {g : Progress} (h : Serving start rest g s)
include h

theorem Serving.endsAs_complete (hn : g.emitted.length = start.block.total.toNat) {bits : BitString} (hunread : g.unread = bits) :
    EndsAs start rest g s { emitted := [], ending := .complete, unread := bits } := by
  obtain ⟨s', hstep, hserved, hshown⟩ := h.finish hn
  exact ⟨1, s', g, servedRun_succ 0 hstep, hserved, hshown, (List.append_nil _).symm, hunread, Nat.add_comm _ _⟩

variable (hlt : g.emitted.length < start.block.total.toNat) (hm : matchSym start.block.ct g.cur = none)
include hlt hm

theorem Serving.endsAs_truncated (hunread : g.unread = []) (hrest : rest.head? = some eosToken) :
    EndsAs start rest g s { emitted := [], ending := .truncated, unread := [] } := by
  obtain ⟨s', hrun, hserved, hshown⟩ := h.truncated hlt hm hunread (List.eq_cons_of_mem_head? hrest)
  exact ⟨2, s', g, hrun, hserved, hshown, (List.append_nil _).symm, hunread, Nat.add_comm _ _⟩

variable {x : Bool} {bits : BitString} (hunread : g.unread = x :: bits)
include hunread

theorem Serving.endsAs_corrupt (hnode : isNode start.block.ct (g.cur ++ [x]) = false) :
    EndsAs start rest g s { emitted := [], ending := .corrupt, unread := bits } := by
  obtain ⟨j, s₁, buf, ds, hrun, h₁, hbits, hj⟩ := h.fetchBit hlt hm hunread
  obtain ⟨s', hstep, hserved, hshown⟩ := h₁.corrupt rfl hlt hm hnode
  refine ⟨j + 1, s', _, (servedRun_add 1 hrun).trans (servedRun_succ 0 hstep), hserved, hshown, (List.append_nil _).symm, hbits, ?_⟩
  rw [Progress.cost_eq hunread]
  simp only [Progress.cost, Progress.unread, hbits, List.length_cons, List.length_nil, SourceEnd.cost]
  omega

/-- The next bit is read where the matcher can descend. -/
theorem Serving.readBit (hnode : isNode start.block.ct (g.cur ++ [x]) = true) :
    ∃ j s₁ g₁, servedRun j s = .next s₁ ∧ Serving start rest g₁ s₁ ∧ g₁.cur = g.cur ++ [x] ∧ g₁.emitted = g.emitted ∧
      g₁.unread = bits ∧ j + g₁.cost = g.cost := by
  obtain ⟨j, s₁, buf, ds, hrun, h₁, hbits, hj⟩ := h.fetchBit hlt hm hunread
  obtain ⟨s₂, hstep, h₂⟩ := h₁.descend rfl hlt hm hnode
  refine ⟨j + 1, s₂, _, (servedRun_add 1 hrun).trans (servedRun_succ 0 hstep), h₂, rfl, rfl, hbits, ?_⟩
  rw [Progress.cost_eq hunread]
  simp only [Progress.cost, Progress.unread, hbits, List.length_cons]
  omega

end

/-- A served decode on a conflict-free table without a zero-length code follows the source's loop to its end. -/
theorem Serving.endsAs {start : State} {rest : List Token} (hp : start.params.wf) (hfree : conflictFree start.block.ct = true)
    (hroot : matchSym start.block.ct [] = none) {bits : BitString} {n : Nat} {g : Progress} {s : State}
    (h : Serving start rest g s) (hm : matchSym start.block.ct g.cur = none) (hunread : g.unread = bits)
    (hn : g.emitted.length + n = start.block.total.toNat)
    (hrest : (sourceFrom start.block.ct g.cur bits n).ending = .truncated → rest.head? = some eosToken) :
    EndsAs start rest g s (sourceFrom start.block.ct g.cur bits n) := by
  induction bits generalizing n g s with
  | nil =>
    cases n with
    | zero => exact h.endsAs_complete hn hunread
    | succ n => exact h.endsAs_truncated (by omega) hm hunread (hrest rfl)
  | cons x bits ih =>
    cases n with
    | zero => exact h.endsAs_complete hn hunread
    | succ n =>
      have hlt : g.emitted.length < start.block.total.toNat := by omega
      cases hnode : isNode start.block.ct (g.cur ++ [x]) with
      | false => exact sourceFrom_corrupt bits n hnode ▸ h.endsAs_corrupt hlt hm hunread hnode
      | true =>
        obtain ⟨j, s₁, g₁, hrun, h₁, hcur, hem, hun, hcost⟩ := h.readBit hlt hm hunread hnode
        cases hm₁ : matchSym start.block.ct (g.cur ++ [x]) with
        | none =>
          rw [sourceFrom_inner bits n hfree hnode hm₁, ← hcur] at hrest ⊢
          exact (ih h₁ (hcur ▸ hm₁) hun (hem ▸ hn) hrest).of_read hrun hem hcost
        | some d =>
          rw [sourceFrom_emit bits n hfree hm₁] at hrest ⊢
          obtain ⟨s₂, hrun₂, h₂⟩ := h₁.emitAndPop hp (hem ▸ hlt) (hcur ▸ hm₁)
          have hn₂ : (g₁.emitted ++ [d]).length + n = start.block.total.toNat := by
            rw [List.length_append, List.length_singleton, hem]
            omega
          have hend : EndsAs start rest _ s₂ (sourceFrom start.block.ct [] bits n) := ih h₂ hroot hun hn₂ hrest
          exact (hend.of_symbol (g := g₁) hrun₂ rfl rfl).of_read hrun hem hcost

/-- START and a served decode of the payload's bytes end as the source's decoder does. -/
theorem start_endsAs {s : State} {bytes : List Byte} {rest : List Token} (hp : s.params.wf) (ht : Table.wf s.block.ct)
    (hfree : conflictFree s.block.ct = true) (hne : NoEmptyCode s.block.ct) (hc : Configurable s.block)
    (hq : s.block.outq = []) (htokens : s.host.tokens = bytes.map byteToken ++ rest)
    (hrest : (sourceDecode s.block.ct (bytes.flatMap byteBits) s.block.total.toNat).ending = .truncated →
      rest.head? = some eosToken) :
    ∃ s₀, exec .start s = .next s₀ ∧
      EndsAs s rest { cur := [], buffer := [], bytes := bytes, emitted := [] } s₀
        (sourceDecode s.block.ct (bytes.flatMap byteBits) s.block.total.toNat) := by
  obtain ⟨s₀, hstart, h⟩ := serving_start hc hfree hq htokens
  have hroot := matchSym_root_of_noEmptyCode ht hne
  rw [sourceDecode_eq] at hrest ⊢
  exact ⟨s₀, hstart, h.endsAs hp hfree hroot hroot rfl (Nat.zero_add _) hrest⟩

/-- Settles O52: the bits that are left stand in the reader and with the host. -/
theorem decoderAgreesWithTheSourceLoop : Obligations.DecoderAgreesWithTheSourceLoop := by
  rintro s bytes r hp ht hfree hne hc hq htokens rfl
  obtain ⟨s₀, hstart, k, s₁, g, hrun, hserved, hshown, hem, hun, -⟩ :=
    start_endsAs hp ht hfree hne hc hq htokens fun _ => rfl
  generalize sourceDecode s.block.ct (bytes.flatMap byteBits) s.block.total.toNat = r at *
  have hem : g.emitted = r.emitted := hem
  have hleft : tokenBits (r.ending.tokensLeft [eosToken]) = [] := by cases r.ending <;> decide
  refine ⟨k, s₀, s₁, hstart, hrun, hem ▸ hserved.received, hserved.queue, hem ▸ hserved.count, ?_, fun he => ?_, fun he => ?_,
    fun he => ?_⟩
  · rw [hserved.tokens, tokenBits_bytes, hleft, List.append_nil, hserved.buffer]
    exact hun
  all_goals
    rw [he] at hshown
    exact hshown

/-- Settles O53: the source decodes the payload to the sequence (`sourceFrom_payloadBits`), and what is left of its bits is less
than a byte. -/
theorem payloadDecodesToItsSymbols : Obligations.PayloadDecodesToItsSymbols := by
  intro s syms rest hp ht hfree hne hlen hsyms hc htotal hq htokens
  obtain ⟨pad, hpad, hpack, -⟩ := packedPayloadHoldsTheCodesInOrder (payloadBits s.block.ct syms)
  have htotal : s.block.total.toNat = syms.length := by rw [htotal, BitVec.toNat_ofNat, Nat.mod_eq_of_lt hlen]
  have hsource : sourceDecode s.block.ct ((payload s.block.ct syms).flatMap byteBits) s.block.total.toNat =
      { emitted := syms, ending := .complete, unread := List.replicate pad false } := by
    rw [payload, hpack, htotal, sourceDecode_eq, sourceFrom_payloadBits ht hfree hne hsyms]
  obtain ⟨s₀, hstart, hend⟩ := start_endsAs hp ht hfree hne hc hq htokens (by rw [hsource]; nofun)
  rw [hsource] at hend
  obtain ⟨k, s₁, g, hrun, hserved, hshown, hem, hun, hk⟩ := hend
  have hem : g.emitted = syms := hem
  have hbytes : g.bytes = [] := by
    have hlt := congrArg List.length hun
    cases hb : g.bytes with
    | nil => rfl
    | cons d ds =>
      simp [Progress.unread, hb] at hlt
      omega
  have hsteps : k = 2 * syms.length + (payloadBits s.block.ct syms).length + (payload s.block.ct syms).length + 1 := by
    have hbits : ((payload s.block.ct syms).flatMap byteBits).length = (payloadBits s.block.ct syms).length + pad := by
      rw [payload, hpack, List.length_append, List.length_replicate]
    have hk : k + g.cost = (payload s.block.ct syms).length + ((payload s.block.ct syms).flatMap byteBits).length +
      2 * syms.length + 1 := hk
    rw [Progress.cost_eq hun, hbytes, hbits, List.length_nil, List.length_replicate] at hk
    omega
  refine ⟨s₀, s₁, hstart, hsteps ▸ hrun, hshown, hem ▸ hserved.count, hserved.queue, hem ▸ hserved.received, ?_⟩
  rw [hserved.tokens, hbytes]
  rfl

/-! ### Single-symbol tables (R78) -/

/-- Where the root has a symbol, the decode emits it until TOTAL is reached, and fetches nothing. -/
theorem Serving.emitAll {start s : State} {rest : List Token} {g : Progress} {d : Byte} {n : Nat}
    (h : Serving start rest g s) (hp : start.params.wf) (hm : matchSym start.block.ct [] = some d) (hcur : g.cur = [])
    (hn : g.emitted.length + n = start.block.total.toNat) :
    ∃ s', servedRun (2 * n + 1) s = .next s' ∧ Served start rest { g with emitted := g.emitted ++ List.replicate n d } s' ∧
      s'.block.state = .done := by
  induction n generalizing g s with
  | zero =>
    obtain ⟨s', hstep, hserved, hdone⟩ := h.finish hn
    exact ⟨s', servedRun_succ 0 hstep, by simpa using hserved, hdone⟩
  | succ n ih =>
    obtain ⟨s₁, hrun, h₁⟩ := h.emitAndPop hp (by omega) (hcur ▸ hm)
    obtain ⟨s', hrun', hserved, hdone⟩ := ih h₁ rfl (by simp; omega)
    refine ⟨s', ?_, ?_, hdone⟩
    · rw [show 2 * (n + 1) + 1 = 2 + (2 * n + 1) by omega]
      exact (servedRun_add _ hrun).trans hrun'
    · simpa [List.replicate_succ, ← hcur] using hserved

/-- The table of one valid code, seen as a tree (R37). -/
theorem matchSym_singleton (d : Byte) (n : BitVec 8) (c p : BitString) :
    matchSym [(d, { v := true, len := n, code := c })] p = if c = p then some d else none := by
  by_cases h : c = p <;> simp [matchSym, symbolsAt, validCodes, h]

theorem isNode_singleton (d : Byte) (n : BitVec 8) (c p : BitString) :
    isNode [(d, { v := true, len := n, code := c })] p = true ↔ p = [] ∨ p <+: c := by
  simp [isNode_iff, validCodes]

/-- Settles O55: the root of the first table has the symbol; below the root of the second, only bit 0 leads to a node. -/
theorem singleSymbolTablesDecode : Obligations.SingleSymbolTablesDecode := by
  refine ⟨fun s d hp hct hc hq => ?_, fun p b d hct => ⟨hct ▸ conflictFree_singleton d _, fun hr hcount hcur hbits => ?_⟩⟩
  · obtain ⟨s₀, hstart, h⟩ := serving_start (bytes := []) (rest := s.host.tokens) hc (hct ▸ conflictFree_singleton d _) hq rfl
    have hm : matchSym s.block.ct [] = some d := by rw [hct, matchSym_singleton, if_pos rfl]
    obtain ⟨s₁, hrun, hserved, hdone⟩ := h.emitAll hp hm rfl (Nat.zero_add _)
    exact ⟨s₀, s₁, hstart, hrun, hdone, hserved.tokens, hserved.received⟩
  · have hm : matchSym b.ct b.cur = none := by rw [hct, hcur, matchSym_singleton, if_neg (by simp)]
    obtain ⟨hdescend, hraise⟩ := bitStepDescendsOrRaisesStruct p b hr hcount hm hbits
    rw [hct, hcur] at hdescend hraise
    refine ⟨fun hbit => ⟨_, hdescend ?_, hr, ?_⟩, fun hbit => ⟨_, hraise ?_, rfl, rfl⟩⟩
    · simp [hbit, isNode_singleton]
    · simp [hbit, matchSym_singleton]
    · simp [hbit, Bool.eq_false_iff, isNode_singleton]

/-! ### The invariants of a decode (R74, R75) -/

/-- In a table whose entries are as R18 requires, no code is longer than MAXLEN. -/
theorem code_length_le {p : Params} {b : Block} (h : StorageOk p b) {e : Byte × BitString} (he : e ∈ validCodes b.ct) :
    e.2.length ≤ p.maxLen := by
  obtain ⟨hv, hcode⟩ := (mem_validCodes h.table).1 he
  obtain ⟨hlen, hmax⟩ := (h.entries e.1).1 hv
  rw [← hcode, hlen]
  exact hmax

/-- Settles O48: the cursor is a node, and a node other than the root begins a code. -/
theorem cursorIsAPrefixOfAValidCode : Obligations.CursorIsAPrefixOfAValidCode := by
  intro s hs hr
  have hcur := (isNode_iff _ _).1 (hs.decode.cursor hr)
  refine ⟨hcur, ?_, fun s' h hr' => (everyStepKeepsTheInvariant s s' hs h).decode.cursor hr'⟩
  obtain hnil | ⟨e, he, hpre⟩ := hcur
  · simp [hnil]
  · exact hpre.length_le.trans (code_length_le hs.storage he)

/-- Settles O49, by the cases of an FSM step: only EMIT counts, and only below TOTAL. -/
theorem countNeverPassesTheTarget : Obligations.CountNeverPassesTheTarget := by
  intro s b hs h
  obtain ⟨hr, ⟨hc, rfl⟩ | ⟨hc, d, hm, _, rfl⟩ | ⟨_, _, _, _, rfl⟩ | ⟨_, _, _, _, rfl⟩ | ⟨_, _, _, _, rfl⟩⟩ := fsmStep_cases h
  · exact ⟨hs.decode.counts hr, rfl, fun _ => hc⟩
  · obtain ⟨-, -, hcount⟩ := emitStepAppendsTheMatchedSymbol s.params s.block d hr hc hm
    obtain ⟨hsucc, hle⟩ := hcount (hs.decode.counts hr)
    refine ⟨hle, ?_, fun hdone => absurd (hr.symm.trans hdone) nofun⟩
    rw [emit_count, emit_outq, hsucc, List.length_append, List.length_singleton]
    omega
  · exact ⟨hs.decode.counts hr, rfl, fun hdone => absurd (hr.symm.trans hdone) nofun⟩
  · exact ⟨hs.decode.counts hr, rfl, nofun⟩
  · exact ⟨hs.decode.counts hr, rfl, nofun⟩

end Sys2Proof.Machine

/-! PROOFS. Proofs/StreamPorts.lean: the statements of 43_stream_ports.md. A token the block accepts finds the FSM in need of a bit, so what the
FSM does next is read off the reader the token leaves behind (`inReady_iff`); a pop turn runs `popTurn`, and the queue decides. -/

namespace Sys2Proof.Machine

/-! ### The payload port (R79 to R81) -/

theorem inReady_of_bitcnt_ne_zero {b : Block} (h : b.bitcnt ≠ 0) : inReady b = false :=
  Bool.eq_false_iff.2 fun hr => by
    obtain ⟨-, -, -, hbits, -⟩ := (inReady_iff b).1 hr
    exact h hbits

theorem inReady_of_eosf {b : Block} (h : b.eosf = true) : inReady b = false :=
  Bool.eq_false_iff.2 fun hr => by
    obtain ⟨-, -, -, -, hopen⟩ := (inReady_iff b).1 hr
    exact absurd (h.symm.trans hopen) nofun

theorem fsmMove_bit (p : Params) {b : Block} (h : b.state = .run) (hc : b.count ≠ b.total)
    (hm : matchSym b.ct b.cur = none) (hb : b.bitcnt ≠ 0) : fsmMove p b = .bit := by
  simp [fsmMove, h, hc, hm, show ¬ b.bitcnt = 0#4 from hb]

/-- The block that waits for a bit has one once a byte is loaded (R80). -/
theorem fsmMove_loadByte (p : Params) (d : Byte) {b : Block} (h : inReady b = true) : fsmMove p (loadByte d b) = .bit := by
  obtain ⟨hrun, hcount, hmatch, -, -⟩ := (inReady_iff b).1 h
  exact fsmMove_bit p hrun hcount hmatch (b := loadByte d b) (by simp)

/-- The block that waits for a bit gets none once the end of the stream is seen (R81). -/
theorem fsmStep_seeEos (p : Params) {b : Block} (h : inReady b = true) :
    fsmStep p (seeEos b) = some (truncatedStep (seeEos b)) := by
  obtain ⟨hrun, hcount, hmatch, hbits, -⟩ := (inReady_iff b).1 h
  exact fsmStep_truncated p hrun hcount hmatch hbits rfl

theorem exec_inByte_ready {s : State} (d : Byte) (h : inReady s.block = true) :
    exec (.inByte d) s = .next { s with block := loadByte d s.block } := by
  rw [exec_eq, blockEffect, if_pos h]

theorem exec_inEos_ready {s : State} (h : inReady s.block = true) :
    exec .inEos s = .next { s with block := seeEos s.block } := by
  rw [exec_eq, blockEffect, if_pos h]

theorem exec_inByte_not_ready {s : State} (d : Byte) (h : inReady s.block = false) : exec (.inByte d) s = .next s := by
  rw [exec_eq, blockEffect, if_neg (Bool.eq_false_iff.1 h)]

theorem exec_inEos_not_ready {s : State} (h : inReady s.block = false) : exec .inEos s = .next s := by
  rw [exec_eq, blockEffect, if_neg (Bool.eq_false_iff.1 h)]

/-- Settles O24: the reader holds eight bits, so `in_ready` is 0 and the FSM takes one (`fsmMove_loadByte`). -/
theorem inByteFillsTheReader : Obligations.InByteFillsTheReader :=
  ⟨fun _ => inReady_of_bitcnt_ne_zero, fun s d =>
    ⟨fun hr => ⟨exec_inByte_ready d hr, inReady_of_bitcnt_ne_zero (by simp), fsmMove_loadByte s.params d hr⟩,
      exec_inByte_not_ready d⟩⟩

/-- Settles O25: the reader is empty and the stream has ended, so `in_ready` is 0 and the FSM raises TRUNCATED (`fsmStep_seeEos`). -/
theorem inEosMarksTheEndOfTheStream : Obligations.InEosMarksTheEndOfTheStream :=
  ⟨fun _ => inReady_of_eosf, fun s =>
    ⟨fun hr => ⟨exec_inEos_ready hr, inReady_of_eosf rfl, fsmStep_seeEos s.params hr⟩, exec_inEos_not_ready⟩⟩

/-! ### The symbol port (R82) -/

theorem step_of_pop_turn {s : State} {ts : List Turn} (h : s.host.turns = .pop :: ts) : step s = popTurn (s.withTurns ts) := by
  simp only [step, stepOnce, h, takeTurn]

theorem popTurn_cons {s : State} {d : Byte} {q : List Byte} (h : s.block.outq = d :: q) :
    popTurn s = .next { s with block := { s.block with outq := q },
                               host := { s.host with received := s.host.received ++ [d] } } := by
  rw [popTurn, popOutput, h]

theorem popTurn_nil {s : State} (h : s.block.outq = []) : popTurn s = .next s := by
  rw [popTurn, popOutput, h]

/-- Settles O27: the head of the queue is what `out_data` shows and what the pop hands over; with no head the turn passes. -/
theorem popDeliversTheOldestSymbol : Obligations.PopDeliversTheOldestSymbol := by
  refine fun s ts hturns => ⟨fun d q hq => ⟨?_, ?_, ?_⟩, fun hq => ⟨?_, ?_, ?_⟩⟩
  · rw [outValid, hq, List.isEmpty_cons, Bool.not_false]
  · rw [outData, hq, List.headD_cons]
  · exact (step_of_pop_turn hturns).trans (popTurn_cons hq)
  · rw [outValid, hq, List.isEmpty_nil, Bool.not_true]
  · rw [outData, hq, List.headD_nil]
  · exact (step_of_pop_turn hturns).trans (popTurn_nil hq)

end Sys2Proof.Machine

/-! PROOFS. Proofs/Exceptions.lean: the statements of 60_exceptions.md. Whatever leads into `ERROR` is a `raise`, by a command
(`blockEffect_raises_of_enters_error`) or by the FSM (`fsmStep_enters_error`). In `ERROR` the FSM has no step, no token is accepted and
every command but ABORT is ignored, so that pops alone still change the block. -/

namespace Sys2Proof.Machine

/-! ### Raising an error (R85, R90) -/

/-- An instruction that leads into `ERROR` raises an error there, and does nothing else (R85). -/
theorem blockEffect_raises_of_enters_error {p : Params} {i : Instr} {b : Block} (hs : b.state ≠ .error)
    (h : (blockEffect p i b).state = .error) : ∃ e, e ≠ .noError ∧ blockEffect p i b = raise e b := by
  obtain ⟨_, _, he⟩ | ⟨_, _, he⟩ | ⟨_, _, he⟩ | ⟨_, _, he⟩ := blockEffect_enters_error hs h
  · exact ⟨.illegalCmd, nofun, he⟩
  · exact ⟨.busy, nofun, he⟩
  · exact ⟨.codeTooLong, nofun, he⟩
  · exact ⟨.tableConflict, nofun, he⟩

/-- An FSM step that leads into `ERROR` has found no bit, or has consumed the one that leads to no node (R69, R70). -/
theorem fsmStep_enters_error {p : Params} {b b' : Block} (h : fsmStep p b = some b') (hs : b'.state = .error) :
    (b.bitcnt = 0 ∧ b' = raise .truncated b) ∨ (b.bitcnt ≠ 0 ∧ b' = raise .struct (dropBit b)) := by
  obtain ⟨hr, ⟨_, rfl⟩ | ⟨_, _, _, _, rfl⟩ | ⟨_, _, _, _, rfl⟩ | ⟨_, _, hb, _, hstruct⟩ | ⟨_, _, hb, _, htrunc⟩⟩ := fsmStep_cases h
  · exact absurd hs nofun
  · exact absurd (hr.symm.trans hs) nofun
  · exact absurd (hr.symm.trans hs) nofun
  · exact .inr ⟨hb, hstruct⟩
  · exact .inl ⟨hb, htrunc⟩

theorem ne_run_of_error {b : Block} (h : b.state = .error) : b.state ≠ .run := fun hr => absurd (hr.symm.trans h) nofun

/-- Settles O22: what leads into `ERROR` is a `raise`, which keeps every element but `STATE` and `ERR`. -/
theorem errorsArePrecise : Obligations.ErrorsArePrecise := by
  refine ⟨fun i s s' h hs hs' => ?_, fun p b b' h hs' => fsmStep_enters_error h hs',
    fun p b hs => fsmStep_of_not_run p (ne_run_of_error hs)⟩
  obtain rfl := exec_next h
  obtain ⟨e, hne, he⟩ := blockEffect_raises_of_enters_error hs hs'
  rw [he]
  exact ⟨rfl, hne⟩

/-- Settles O20, by the test of `ERROR` that an illegal word meets (R56). -/
theorem illegalWordRaisesIllegalCmd : Obligations.IllegalWordRaisesIllegalCmd := by
  refine fun s w => ⟨fun hs => ?_, fun hs => ?_⟩
  · rw [exec_eq, blockEffect, if_neg hs, raise]
  · rw [exec_eq, blockEffect, if_pos hs]

/-! ### What `ERROR` leaves to the agents (R93) -/

/-- Settles O43, by the cases of a step. -/
theorem errorIsStickyUntilAbortOrReset : Obligations.ErrorIsStickyUntilAbortOrReset := by
  intro s s' hs h hreset habort
  have hr := ne_run_of_error hs
  rcases step_cases h with ⟨b, hf, _, rfl⟩ | ⟨w, ws, ht, hw, rfl⟩ | ⟨_, _, _, _, hready, rfl⟩ | ⟨d, q, ht, hq, rfl⟩ | ⟨ht, rfl⟩ |
    ⟨_, _, rfl⟩
  · exact absurd (hf.symm.trans (fsmStep_of_not_run _ hr)) nofun
  · have hignored : blockEffect s.params (decodeCommand w) s.block = s.block :=
      blockEffect_of_error _ hs fun hi => habort ⟨ht, w, ws, hw, hi⟩
    rw [hignored]
    exact ⟨rfl, rfl, .inl rfl⟩
  · exact absurd (hready.symm.trans (inReady_of_not_run hr)) nofun
  · exact ⟨rfl, rfl, .inr ⟨d, hq, ht⟩⟩
  · exact absurd ht hreset
  · exact ⟨rfl, rfl, .inl rfl⟩

end Sys2Proof.Machine

/-! PROOFS. Proofs/ResetAndHazards.lean: the statements of 70_reset_and_hazards.md. Where the FSM has no step and no token is accepted, a
host that does nothing else leaves the block as it is (R106); so does one that has no token to offer in WAIT (R105). -/

namespace Sys2Proof.Machine

/-! ### Reset (R100) -/

/-- Settles O44: a reset turn is defined by the values of R29, and an empty table reads `Entry.invalid` at every symbol. -/
theorem resetSetsEveryElement : Obligations.ResetSetsEveryElement := by
  refine fun s ts hturns => ⟨?_, read_nil⟩
  simp only [step, stepOnce, hturns]
  rfl

/-! ### The writers of a table entry (R110) -/

/-- An instruction that changes the table performs in `IDLE` or `DONE` (R56). -/
theorem configurable_of_ct_ne {p : Params} {i : Instr} {b : Block} (h : (blockEffect p i b).ct ≠ b.ct) : Configurable b := by
  rcases effect_cases p i b with he | ⟨_, _, _, he⟩ | ⟨_, _, he, _⟩ | ⟨_, he⟩ | ⟨_, ⟨_, _, he⟩ | ⟨_, he⟩⟩ | ⟨hc, _⟩
  rotate_right
  · exact hc
  all_goals exact absurd (congrArg Block.ct he) h

/-- An instruction that changes the table is CT_CLEAR or CT_COMMIT (R12). -/
theorem writer_of_ct_ne {p : Params} {i : Instr} {b : Block} (h : (blockEffect p i b).ct ≠ b.ct) :
    i = .ctClear ∨ ∃ sym, i = .ctCommit sym := by
  obtain ⟨_, _, _, _, _, _, hct, _⟩ := eachElementChangesOnlyByItsWriters i ⟨p, b, .quiet⟩ _ (exec_eq ..)
  exact hct h

/-- What CT_COMMIT changes in the table is the entry of its own symbol (R60). -/
theorem read_performCtCommit_of_ne {sym d : Byte} (b : Block) (h : d ≠ sym) :
    Table.read (performCtCommit sym b).ct d = Table.read b.ct d :=
  (read_write b.ct sym d _ (stagedEntry_ne b)).trans (if_neg h)

/-- An instruction that changes what the table reads at a symbol performs, and it is CT_CLEAR, or CT_COMMIT of that symbol. -/
theorem writer_of_read_ne {p : Params} {i : Instr} {b : Block} {d : Byte}
    (h : Table.read (blockEffect p i b).ct d ≠ Table.read b.ct d) :
    Configurable b ∧ (i = .ctClear ∨ i = .ctCommit d) := by
  have hct : (blockEffect p i b).ct ≠ b.ct := fun hct => h (by rw [hct])
  have hc := configurable_of_ct_ne hct
  obtain rfl | ⟨sym, rfl⟩ := writer_of_ct_ne hct
  · exact ⟨hc, .inl rfl⟩
  · have hsym : d = sym := by
      by_contra hne
      rw [ctCommit_gated, gate_of_configurable hc] at h
      exact h (read_performCtCommit_of_ne b hne)
    exact ⟨hc, .inr (by rw [hsym])⟩

/-- Settles O42: neither the FSM's step, a token, a pop nor a turn that passes writes the table; a command writes as
`writer_of_read_ne` says. -/
theorem onlyClearCommitAndResetChangeTheTable : Obligations.OnlyClearCommitAndResetChangeTheTable := by
  intro s s' h hreset d hd
  rcases step_cases h with ⟨b, hf, _, rfl⟩ | ⟨w, ws, ht, hw, rfl⟩ | ⟨_, _, _, _, hready, rfl⟩ | ⟨_, _, _, _, rfl⟩ | ⟨ht, rfl⟩ |
    ⟨_, _, rfl⟩
  · obtain ⟨_, hct, _⟩ := fsmStepsLeaveTableStagingAndTargetAlone _ _ _ hf
    exact absurd (by rw [hct]) hd
  · obtain ⟨hc, hi⟩ := writer_of_read_ne hd
    exact ⟨hc, hi.imp (fun hi => ⟨ht, w, ws, hw, hi⟩) fun hi => ⟨ht, w, ws, hw, hi⟩⟩
  · obtain ⟨hr, _⟩ := (inReady_iff _).1 hready
    exact absurd (by rw [(blockEffect_frame_of_run _ _ hr).1]) hd
  · exact absurd rfl hd
  · exact absurd ht hreset
  · exact absurd rfl hd

/-! ### The output duty (R106) -/

/-- With no FSM step and no token accepted, a step of a host that only offers tokens is a turn that passes. -/
theorem step_passes {s s' : State} (hfsm : fsmStep s.params s.block = none) (hready : inReady s.block = false)
    (hts : ∀ t ∈ s.host.turns, t = .fsm ∨ t = .token) (h : step s = .next s') : s' = { s with host := s.host.nextTurn } := by
  have hhead : ∀ t, s.host.turns.head? = some t → t = .fsm ∨ t = .token := fun t ht => hts t (List.mem_of_head? ht)
  rcases step_cases h with ⟨_, hf, _⟩ | ⟨_, _, ht, _⟩ | ⟨_, _, _, _, hr, _⟩ | ⟨_, _, ht, _⟩ | ⟨ht, _⟩ | ⟨_, _, hpass⟩
  · exact absurd (hfsm.symm.trans hf) nofun
  · exact absurd (hhead _ ht) (by decide)
  · exact absurd (hready.symm.trans hr) nofun
  · exact absurd (hhead _ ht) (by decide)
  · exact absurd (hhead _ ht) (by decide)
  · exact hpass

/-- With no FSM step and no token accepted, no run of such a host changes the block or takes a token from the host. -/
theorem run_passes {k : Nat} {s s' : State} (hfsm : fsmStep s.params s.block = none) (hready : inReady s.block = false)
    (hts : ∀ t ∈ s.host.turns, t = .fsm ∨ t = .token) (h : core.run k s = .next s') :
    s'.block = s.block ∧ s'.host.tokens = s.host.tokens := by
  induction k generalizing s with
  | zero =>
    obtain rfl : s = s' := Host.Outcome.next.inj h
    exact ⟨rfl, rfl⟩
  | succ k ih =>
    obtain ⟨s₁, hstep, hrun⟩ := run_succ h
    obtain rfl := step_passes hfsm hready hts hstep
    exact ih (s := { s with host := s.host.nextTurn }) hfsm hready (fun t ht => hts t (List.mem_of_mem_tail ht)) hrun

/-- Settles O59: EMIT holds for want of room (R68), and with a symbol matched `in_ready` is 0 (R79). -/
theorem fullQueueHoldsTheDecode : Obligations.FullQueueHoldsTheDecode := by
  intro s s' ts k d hr hc hm hq hts hrun
  have hready : inReady s.block = false := by simp [inReady, hm]
  exact run_passes (s := s.withTurns ts) (fsmStep_hold hr hc hm hq) hready hts hrun

/-! ### The input duty (R105) -/

/-- In WAIT with nothing to pop, the turn is the host's, and it passes for want of a token. -/
theorem servedStep_noToken {s : State} (hr : inReady s.block = true) (hq : s.block.outq = []) (ht : s.host.tokens = []) :
    servedStep s = .next (s.withTurns []) := by
  have hturn : servedTurn s.block = .token := by simp [servedTurn, outValid, hq, hr]
  rw [servedStep, hturn, step, stepOnce, withTurns_turns]
  simp only [takeTurn, tokenTurn, withTurns_tokens, ht]
  rfl

/-- Settles O58, by induction on the number of steps: each one only uses up its turn. -/
theorem decodeWaitsForEverWithoutTokens : Obligations.DecodeWaitsForEverWithoutTokens := by
  intro s k hr hq ht
  induction k generalizing s with
  | zero => exact ⟨s, rfl, rfl⟩
  | succ k ih =>
    obtain ⟨s', hrun, hblock⟩ := ih (s.withTurns []) hr hq ht
    exact ⟨s', (servedRun_succ k (servedStep_noToken hr hq ht)).trans hrun, hblock⟩

end Sys2Proof.Machine
